-- ==== Sys2Proof/Word.lean ====
section
/-! DEFINITION. The words of the block and the named values its fields take (spec/10_state.md, spec/30_encoding.md). -/

namespace Sys2Proof

/-- A byte of IN (R60). -/
abbrev Byte := BitVec 8
/-- An index of the output stream (R5: 8 bits, R63). -/
abbrev Index := BitVec 8
/-- A host register, write data or read data (R88). -/
abbrev Word := BitVec 32
/-- A code, zero-extended to 12 bits (R81). -/
abbrev Code := BitVec 12
/-- A host transaction: WE in bit 40, OFF in bits 39 to 32, WDATA in bits 31 to 0 (R88). -/
abbrev HbusWord := BitVec 41

/-- STATUS.STATE (R25). -/
inductive RunState
  | idle | busy | done | error
deriving DecidableEq, Repr, Inhabited

/-- PHASE (R32). -/
inductive Phase
  | first | loop
deriving DecidableEq, Repr, Inhabited

/-- ERR_KIND: no error, or one of the seven kinds in the order R210 numbers them. -/
inductive ErrKind
  | none | invalidSignature | unsupportedVersion | unexpectedEndOfData | unknownBlockIntroducer
  | protocolError | corruptedStream | validationMismatch
deriving DecidableEq, Repr, Inhabited

/-- The minimum code sizes START accepts, 2 to 8 (R5, R83). -/
inductive MinCode
  | m2 | m3 | m4 | m5 | m6 | m7 | m8
deriving DecidableEq, Repr, Inhabited

/-- An entry of the code table (R34). A `seq` is non-empty by its form: its first index and the rest. -/
inductive Entry
  | absent
  | seq (head : Index) (tail : List Index)
  | clear
  | endMark
deriving DecidableEq, Repr, Inhabited

/-- The code table T: 4096 entries indexed by the codes 0 to 4095 (R34). -/
abbrev Table := Vector Entry 4096

end Sys2Proof
end

