-- ==== Sys2Proof/Config.lean ====
section
/-! DEFINITION. The parameters of spec/00_scope.md R5 and the free values: constants with no body, of which nothing can be proved. -/

namespace Sys2Proof

/-- Entries of the code table (R5). -/
abbrev Config.tableSize : Nat := 4096
/-- The widest code, in bits (R5). -/
abbrev Config.maxCodeWidth : Nat := 12
/-- The least minimum code size START accepts (R5, decision D7). -/
abbrev Config.leastMinCode : Nat := 2
/-- The greatest minimum code size START accepts (R5, decision D7). -/
abbrev Config.greatestMinCode : Nat := 8

/-- LZW_BASE, the OPEN base address of the register window (R5, R65). Log 16. -/
opaque Config.lzwBase : Nat

/-- The n-th draw: the source of every value the spec leaves open (R39, R66, R181), cut to the width needed. Log 6, 8, 10, 11. -/
opaque Config.draw : Nat → BitVec 64

/-- The n-th drawn code table: what T holds where the spec says "any value" (R37, R192, R240, R241). Log 7. -/
opaque Config.drawTable : Nat → Table

end Sys2Proof
end

