-- ==== Sys2Proof/Syntax.lean ====
section
/-! DEFINITION. The instructions: one constructor per row of spec/opcode_table.json. -/

namespace Sys2Proof

/-- A host transaction (format HBUS, R88) or a code step's class (format CODE_w, R80, R84).
An operand is a field of the word that the row leaves free; the state a row's condition names is no operand
(the decoder reads it, Decode.lean). `hi` is WDATA[31:2], which CTRL ignores; `start` is WDATA[0] of an ABORT;
`wdata` of a read is the write data a read ignores; `root` is a root code of the row's minimum code size (it fits
the row's free bits); `code` is the whole code, zero-extended to 12 bits (R81); `bits` is the size of the platform
access, 32 being the one admitted (R181). -/
inductive Instr
  /-- START (R190). -/
  | start (hi : BitVec 30)
  /-- START_BUSY (R191). -/
  | startBusy (hi : BitVec 30)
  /-- ABORT (R192). -/
  | abort (start : Bool) (hi : BitVec 30)
  /-- CTRL_NOP (R193). -/
  | ctrlNop (hi : BitVec 30)
  /-- WR_CONFIG (R185). -/
  | wrConfig (wdata : Word)
  /-- WR_IN_LEN (R186). -/
  | wrInLen (wdata : Word)
  /-- RD_CTRL (R182). -/
  | rdCtrl (wdata : Word)
  /-- RD_CONFIG (R182). -/
  | rdConfig (wdata : Word)
  /-- RD_IN_LEN (R182). -/
  | rdInLen (wdata : Word)
  /-- RD_STATUS (R182). -/
  | rdStatus (wdata : Word)
  /-- RD_CODE_WIDTH (R182). -/
  | rdCodeWidth (wdata : Word)
  /-- RD_NEXT_CODE (R182). -/
  | rdNextCode (wdata : Word)
  /-- RD_PREV_CODE (R182). -/
  | rdPrevCode (wdata : Word)
  /-- RD_BYTE_INDEX (R182). -/
  | rdByteIndex (wdata : Word)
  /-- RD_BIT_INDEX (R182). -/
  | rdBitIndex (wdata : Word)
  /-- RD_OUT_COUNT_LO (R182). -/
  | rdOutCountLo (wdata : Word)
  /-- RD_OUT_COUNT_HI (R182). -/
  | rdOutCountHi (wdata : Word)
  /-- RD_ERR_CODE (R182). -/
  | rdErrCode (wdata : Word)
  /-- WR_STATUS (R187). -/
  | wrStatus (wdata : Word)
  /-- WR_CODE_WIDTH (R187). -/
  | wrCodeWidth (wdata : Word)
  /-- WR_NEXT_CODE (R187). -/
  | wrNextCode (wdata : Word)
  /-- WR_PREV_CODE (R187). -/
  | wrPrevCode (wdata : Word)
  /-- WR_BYTE_INDEX (R187). -/
  | wrByteIndex (wdata : Word)
  /-- WR_BIT_INDEX (R187). -/
  | wrBitIndex (wdata : Word)
  /-- WR_OUT_COUNT_LO (R187). -/
  | wrOutCountLo (wdata : Word)
  /-- WR_OUT_COUNT_HI (R187). -/
  | wrOutCountHi (wdata : Word)
  /-- WR_ERR_CODE (R187). -/
  | wrErrCode (wdata : Word)
  /-- RD_UNMAPPED_30 (R183). -/
  | rdUnmapped30 (off : BitVec 8) (wdata : Word)
  /-- RD_UNMAPPED_40 (R183). -/
  | rdUnmapped40 (off : BitVec 8) (wdata : Word)
  /-- RD_UNMAPPED_80 (R183). -/
  | rdUnmapped80 (off : BitVec 8) (wdata : Word)
  /-- WR_UNMAPPED_30 (R187). -/
  | wrUnmapped30 (off : BitVec 8) (wdata : Word)
  /-- WR_UNMAPPED_40 (R187). -/
  | wrUnmapped40 (off : BitVec 8) (wdata : Word)
  /-- WR_UNMAPPED_80 (R187). -/
  | wrUnmapped80 (off : BitVec 8) (wdata : Word)
  /-- REFUSED_OFF0 (R181). -/
  | refusedOff0 (bits : Nat) (word : HbusWord)
  /-- REFUSED_OFF1 (R181). -/
  | refusedOff1 (word : HbusWord)
  /-- EOD (R136). -/
  | eod
  /-- FIRST (R137). -/
  | first (code : Code)
  /-- FIRST_CLEAR_m2 (R138). -/
  | firstClearM2
  /-- FIRST_CLEAR_m3 (R138). -/
  | firstClearM3
  /-- FIRST_CLEAR_m4 (R138). -/
  | firstClearM4
  /-- FIRST_CLEAR_m5 (R138). -/
  | firstClearM5
  /-- FIRST_CLEAR_m6 (R138). -/
  | firstClearM6
  /-- FIRST_CLEAR_m7 (R138). -/
  | firstClearM7
  /-- FIRST_CLEAR_m8 (R138). -/
  | firstClearM8
  /-- FIRST_BAD (R138). -/
  | firstBad (code : Code)
  /-- CLEAR_m2 (R139). -/
  | clearM2
  /-- CLEAR_m3 (R139). -/
  | clearM3
  /-- CLEAR_m4 (R139). -/
  | clearM4
  /-- CLEAR_m5 (R139). -/
  | clearM5
  /-- CLEAR_m6 (R139). -/
  | clearM6
  /-- CLEAR_m7 (R139). -/
  | clearM7
  /-- CLEAR_m8 (R139). -/
  | clearM8
  /-- END_m2 (R140). -/
  | endM2
  /-- END_m3 (R140). -/
  | endM3
  /-- END_m4 (R140). -/
  | endM4
  /-- END_m5 (R140). -/
  | endM5
  /-- END_m6 (R140). -/
  | endM6
  /-- END_m7 (R140). -/
  | endM7
  /-- END_m8 (R140). -/
  | endM8
  /-- LIT_m2_NOPREV (R141). -/
  | litM2Noprev (root : BitVec 2)
  /-- LIT_m2 (R142). -/
  | litM2 (root : BitVec 2)
  /-- LIT_m2_FULL (R143). -/
  | litM2Full (root : BitVec 2)
  /-- LIT_m3_NOPREV (R141). -/
  | litM3Noprev (root : BitVec 3)
  /-- LIT_m3 (R142). -/
  | litM3 (root : BitVec 3)
  /-- LIT_m3_FULL (R143). -/
  | litM3Full (root : BitVec 3)
  /-- LIT_m4_NOPREV (R141). -/
  | litM4Noprev (root : BitVec 4)
  /-- LIT_m4 (R142). -/
  | litM4 (root : BitVec 4)
  /-- LIT_m4_FULL (R143). -/
  | litM4Full (root : BitVec 4)
  /-- LIT_m5_NOPREV (R141). -/
  | litM5Noprev (root : BitVec 5)
  /-- LIT_m5 (R142). -/
  | litM5 (root : BitVec 5)
  /-- LIT_m5_FULL (R143). -/
  | litM5Full (root : BitVec 5)
  /-- LIT_m6_NOPREV (R141). -/
  | litM6Noprev (root : BitVec 6)
  /-- LIT_m6 (R142). -/
  | litM6 (root : BitVec 6)
  /-- LIT_m6_FULL (R143). -/
  | litM6Full (root : BitVec 6)
  /-- LIT_m7_NOPREV (R141). -/
  | litM7Noprev (root : BitVec 7)
  /-- LIT_m7 (R142). -/
  | litM7 (root : BitVec 7)
  /-- LIT_m7_FULL (R143). -/
  | litM7Full (root : BitVec 7)
  /-- LIT_m8_NOPREV (R141). -/
  | litM8Noprev (root : BitVec 8)
  /-- LIT_m8 (R142). -/
  | litM8 (root : BitVec 8)
  /-- LIT_m8_FULL (R143). -/
  | litM8Full (root : BitVec 8)
  /-- DICT_NOPREV (R141). -/
  | dictNoprev (code : Code)
  /-- DICT (R142). -/
  | dict (code : Code)
  /-- DICT_FULL (R143). -/
  | dictFull (code : Code)
  /-- KWKWK (R144). -/
  | kwkwk (code : Code)
  /-- KWKWK_NOPREV (R145). -/
  | kwkwkNoprev (code : Code)
  /-- BEYOND (R146). -/
  | beyond (code : Code)
deriving DecidableEq, Repr

end Sys2Proof
end

