-- ==== Sys2Proof/WellFormed.lean ====
section
/-! DEFINITION. Which instructions have an encoding at all. -/

namespace Sys2Proof

/-- What an instruction's operands must satisfy for some word and some state to decode to it. The unmapped rows: OFF
matches the row's own bits (opcode_table.json, R92). The refused rows: a size other than 32 bits or OFF[0] = 1, and
else OFF[1] = 1 (R89). The dynamic rows: no dynamic code is below ROOT_SIZE + 2 ≥ 6, a DICT code is below
NEXT_CODE < 4096, and a BEYOND code is above NEXT_CODE ≥ 6 (R84). -/
def Instr.wf : Instr → Bool
  | .start _ => true
  | .startBusy _ => true
  | .abort _ _ => true
  | .ctrlNop _ => true
  | .wrConfig _ => true
  | .wrInLen _ => true
  | .rdCtrl _ => true
  | .rdConfig _ => true
  | .rdInLen _ => true
  | .rdStatus _ => true
  | .rdCodeWidth _ => true
  | .rdNextCode _ => true
  | .rdPrevCode _ => true
  | .rdByteIndex _ => true
  | .rdBitIndex _ => true
  | .rdOutCountLo _ => true
  | .rdOutCountHi _ => true
  | .rdErrCode _ => true
  | .wrStatus _ => true
  | .wrCodeWidth _ => true
  | .wrNextCode _ => true
  | .wrPrevCode _ => true
  | .wrByteIndex _ => true
  | .wrBitIndex _ => true
  | .wrOutCountLo _ => true
  | .wrOutCountHi _ => true
  | .wrErrCode _ => true
  | .rdUnmapped30 off _ => off &&& 0xF3#8 == 0x30#8
  | .rdUnmapped40 off _ => off &&& 0x43#8 == 0x40#8
  | .rdUnmapped80 off _ => off &&& 0xC3#8 == 0x80#8
  | .wrUnmapped30 off _ => off &&& 0xF3#8 == 0x30#8
  | .wrUnmapped40 off _ => off &&& 0x43#8 == 0x40#8
  | .wrUnmapped80 off _ => off &&& 0xC3#8 == 0x80#8
  | .refusedOff0 bits word => bits != 32 || word.getLsbD 32
  | .refusedOff1 word => !word.getLsbD 32 && word.getLsbD 33
  | .eod => true
  | .first _ => true
  | .firstClearM2 => true
  | .firstClearM3 => true
  | .firstClearM4 => true
  | .firstClearM5 => true
  | .firstClearM6 => true
  | .firstClearM7 => true
  | .firstClearM8 => true
  | .firstBad _ => true
  | .clearM2 => true
  | .clearM3 => true
  | .clearM4 => true
  | .clearM5 => true
  | .clearM6 => true
  | .clearM7 => true
  | .clearM8 => true
  | .endM2 => true
  | .endM3 => true
  | .endM4 => true
  | .endM5 => true
  | .endM6 => true
  | .endM7 => true
  | .endM8 => true
  | .litM2Noprev _ => true
  | .litM2 _ => true
  | .litM2Full _ => true
  | .litM3Noprev _ => true
  | .litM3 _ => true
  | .litM3Full _ => true
  | .litM4Noprev _ => true
  | .litM4 _ => true
  | .litM4Full _ => true
  | .litM5Noprev _ => true
  | .litM5 _ => true
  | .litM5Full _ => true
  | .litM6Noprev _ => true
  | .litM6 _ => true
  | .litM6Full _ => true
  | .litM7Noprev _ => true
  | .litM7 _ => true
  | .litM7Full _ => true
  | .litM8Noprev _ => true
  | .litM8 _ => true
  | .litM8Full _ => true
  | .dictNoprev code => decide (6 ≤ code.toNat)
  | .dict code => decide (6 ≤ code.toNat) && decide (code.toNat < 4095)
  | .dictFull code => decide (6 ≤ code.toNat)
  | .kwkwk code => decide (6 ≤ code.toNat)
  | .kwkwkNoprev code => decide (6 ≤ code.toNat)
  | .beyond code => decide (7 ≤ code.toNat)

/-- The instruction is well formed. -/
abbrev WellFormed (i : Instr) : Prop := i.wf = true

end Sys2Proof
end

