-- ==== Sys2Proof/Decode.lean ====
section
/-! DEFINITION. Decoding host transactions and codes, and the encoder written from the same tables
(spec/30_encoding.md, spec/opcode_table.json). -/

namespace Sys2Proof

/-! The fields of an HBUS word (R88). -/

/-- WE, bit 40. -/
def hbusWe (w : HbusWord) : Bool := w.getLsbD 40
/-- OFF, bits 39 to 32. -/
def hbusOff (w : HbusWord) : BitVec 8 := w.extractLsb' 32 8
/-- WDATA, bits 31 to 0. -/
def hbusData (w : HbusWord) : Word := w.extractLsb' 0 32
/-- The word {WE, OFF, WDATA}. -/
def hbusWord (we : Bool) (off : BitVec 8) (data : Word) : HbusWord := BitVec.ofBool we ++ off ++ data

/-! The constants of a minimum code size (R33, R83). -/

/-- m as a number. -/
def minCodeNat : MinCode → Nat
  | .m2 => 2 | .m3 => 3 | .m4 => 4 | .m5 => 5 | .m6 => 6 | .m7 => 7 | .m8 => 8
/-- The minimum code size of that number, if START accepts it (R130). -/
def minCodeOfNat : Nat → Option MinCode
  | 2 => some .m2 | 3 => some .m3 | 4 => some .m4 | 5 => some .m5 | 6 => some .m6 | 7 => some .m7 | 8 => some .m8
  | _ => none
/-- ROOT_SIZE = 2^m, which is also CLEAR_CODE (R33). -/
def rootSize (m : MinCode) : Nat := 2 ^ minCodeNat m

/-! What the decoder reads of the state. -/

/-- The state the code class map reads (R84, R93): PHASE, CONFIG.FIRST_CHECK, CONFIG.MIN_CODE_SIZE, PREV_VALID, NEXT_CODE. -/
structure CodeCtx where
  phase : Phase
  firstCheck : Bool
  minCode : MinCode
  prevValid : Bool
  nextCode : Nat
deriving DecidableEq, Repr

/-- The state decoding reads: STATE = BUSY tells START from START_BUSY (R190, R191), the rest the code classes. -/
structure Ctx where
  busy : Bool
  codes : CodeCtx
deriving DecidableEq, Repr

/-- The form in which an instruction reaches the block: a host transaction of a size in bits, a code, or, at the end of
the data, no code at all (R87). -/
inductive Encoded
  | hbus (bits : Nat) (word : HbusWord)
  | code (code : Code)
  | noCode
deriving DecidableEq, Repr

/-! Host transactions. -/

/-- A write to CTRL (R90, R189): ABORT takes priority, then START, else nothing. -/
def decodeCtrl (busy : Bool) (d : Word) : Instr :=
  if d.getLsbD 1 then .abort (d.getLsbD 0) (d.extractLsb' 2 30)
  else if d.getLsbD 0 then
    if busy then .startBusy (d.extractLsb' 2 30) else .start (d.extractLsb' 2 30)
  else .ctrlNop (d.extractLsb' 2 30)

/-- An aligned read (10_state.md section 2, R92). -/
def decodeRead (off : BitVec 8) (d : Word) : Instr :=
  if off = 0x00#8 then .rdCtrl d
  else if off = 0x04#8 then .rdConfig d
  else if off = 0x08#8 then .rdInLen d
  else if off = 0x0C#8 then .rdStatus d
  else if off = 0x10#8 then .rdCodeWidth d
  else if off = 0x14#8 then .rdNextCode d
  else if off = 0x18#8 then .rdPrevCode d
  else if off = 0x1C#8 then .rdByteIndex d
  else if off = 0x20#8 then .rdBitIndex d
  else if off = 0x24#8 then .rdOutCountLo d
  else if off = 0x28#8 then .rdOutCountHi d
  else if off = 0x2C#8 then .rdErrCode d
  else if off.getLsbD 6 then .rdUnmapped40 off d
  else if off.getLsbD 7 then .rdUnmapped80 off d
  else .rdUnmapped30 off d

/-- An aligned write (10_state.md section 2, R92). -/
def decodeWrite (busy : Bool) (off : BitVec 8) (d : Word) : Instr :=
  if off = 0x00#8 then decodeCtrl busy d
  else if off = 0x04#8 then .wrConfig d
  else if off = 0x08#8 then .wrInLen d
  else if off = 0x0C#8 then .wrStatus d
  else if off = 0x10#8 then .wrCodeWidth d
  else if off = 0x14#8 then .wrNextCode d
  else if off = 0x18#8 then .wrPrevCode d
  else if off = 0x1C#8 then .wrByteIndex d
  else if off = 0x20#8 then .wrBitIndex d
  else if off = 0x24#8 then .wrOutCountLo d
  else if off = 0x28#8 then .wrOutCountHi d
  else if off = 0x2C#8 then .wrErrCode d
  else if off.getLsbD 6 then .wrUnmapped40 off d
  else if off.getLsbD 7 then .wrUnmapped80 off d
  else .wrUnmapped30 off d

/-- A host transaction of `bits` bits: refused unless it is 32 bits wide and OFF[1:0] = 0 (R89, R181), log 12. -/
def decodeHbus (busy : Bool) (bits : Nat) (w : HbusWord) : Instr :=
  if bits ≠ 32 then .refusedOff0 bits w
  else if w.getLsbD 32 then .refusedOff0 32 w
  else if w.getLsbD 33 then .refusedOff1 w
  else if hbusWe w then decodeWrite busy (hbusOff w) (hbusData w)
  else decodeRead (hbusOff w) (hbusData w)

/-! Codes: the class map of R84. -/

/-- The FIRST_CLEAR row of a minimum code size. -/
def firstClearRow : MinCode → Instr
  | .m2 => .firstClearM2
  | .m3 => .firstClearM3
  | .m4 => .firstClearM4
  | .m5 => .firstClearM5
  | .m6 => .firstClearM6
  | .m7 => .firstClearM7
  | .m8 => .firstClearM8
/-- The CLEAR row of a minimum code size. -/
def clearRow : MinCode → Instr
  | .m2 => .clearM2
  | .m3 => .clearM3
  | .m4 => .clearM4
  | .m5 => .clearM5
  | .m6 => .clearM6
  | .m7 => .clearM7
  | .m8 => .clearM8
/-- The END row of a minimum code size. -/
def endRow : MinCode → Instr
  | .m2 => .endM2
  | .m3 => .endM3
  | .m4 => .endM4
  | .m5 => .endM5
  | .m6 => .endM6
  | .m7 => .endM7
  | .m8 => .endM8
/-- The LIT row of a minimum code size with no previous code (R141); the root code's low m bits are the operand. -/
def litNoprevRow (c : Code) : MinCode → Instr
  | .m2 => .litM2Noprev (c.setWidth 2)
  | .m3 => .litM3Noprev (c.setWidth 3)
  | .m4 => .litM4Noprev (c.setWidth 4)
  | .m5 => .litM5Noprev (c.setWidth 5)
  | .m6 => .litM6Noprev (c.setWidth 6)
  | .m7 => .litM7Noprev (c.setWidth 7)
  | .m8 => .litM8Noprev (c.setWidth 8)
/-- The LIT row of a minimum code size with a previous code and room in the table (R142); the root code's low m bits are the operand. -/
def litRow (c : Code) : MinCode → Instr
  | .m2 => .litM2 (c.setWidth 2)
  | .m3 => .litM3 (c.setWidth 3)
  | .m4 => .litM4 (c.setWidth 4)
  | .m5 => .litM5 (c.setWidth 5)
  | .m6 => .litM6 (c.setWidth 6)
  | .m7 => .litM7 (c.setWidth 7)
  | .m8 => .litM8 (c.setWidth 8)
/-- The LIT row of a minimum code size with a previous code and a full table (R143); the root code's low m bits are the operand. -/
def litFullRow (c : Code) : MinCode → Instr
  | .m2 => .litM2Full (c.setWidth 2)
  | .m3 => .litM3Full (c.setWidth 3)
  | .m4 => .litM4Full (c.setWidth 4)
  | .m5 => .litM5Full (c.setWidth 5)
  | .m6 => .litM6Full (c.setWidth 6)
  | .m7 => .litM7Full (c.setWidth 7)
  | .m8 => .litM8Full (c.setWidth 8)

/-- The class of a code (R84, R150). The first test that holds selects it. -/
def decodeCode (x : CodeCtx) (c : Code) : Instr :=
  match x.phase with
  | .first =>
    if x.firstCheck = false then .first c
    else if c.toNat = rootSize x.minCode then firstClearRow x.minCode
    else .firstBad c
  | .loop =>
    if c.toNat = rootSize x.minCode then clearRow x.minCode
    else if c.toNat = rootSize x.minCode + 1 then endRow x.minCode
    else if c.toNat < rootSize x.minCode then
      if x.prevValid = false then litNoprevRow c x.minCode
      else if x.nextCode < Config.tableSize then litRow c x.minCode
      else litFullRow c x.minCode
    else if c.toNat < x.nextCode then
      if x.prevValid = false then .dictNoprev c
      else if x.nextCode < Config.tableSize then .dict c
      else .dictFull c
    else if c.toNat = x.nextCode then
      if x.prevValid then .kwkwk c else .kwkwkNoprev c
    else .beyond c

/-- The decoder: total on every encoded form. -/
def decode (x : Ctx) : Encoded → Instr
  | .hbus bits w => decodeHbus x.busy bits w
  | .code c => decodeCode x.codes c
  | .noCode => .eod

/-! The encoder. -/

/-- The word of a CTRL write. -/
def ctrlWord (hi : BitVec 30) (low : BitVec 2) : HbusWord := hbusWord true 0x00#8 (hi ++ low)

/-- The encoded form of an instruction, from opcode_table.json and the tables of 30_encoding.md. -/
def encode : Instr → Encoded
  | .start hi => .hbus 32 (ctrlWord hi 0b01#2)
  | .startBusy hi => .hbus 32 (ctrlWord hi 0b01#2)
  | .abort start hi => .hbus 32 (ctrlWord hi (0b1#1 ++ BitVec.ofBool start))
  | .ctrlNop hi => .hbus 32 (ctrlWord hi 0b00#2)
  | .wrConfig d => .hbus 32 (hbusWord true 0x04#8 d)
  | .wrInLen d => .hbus 32 (hbusWord true 0x08#8 d)
  | .rdCtrl d => .hbus 32 (hbusWord false 0x00#8 d)
  | .rdConfig d => .hbus 32 (hbusWord false 0x04#8 d)
  | .rdInLen d => .hbus 32 (hbusWord false 0x08#8 d)
  | .rdStatus d => .hbus 32 (hbusWord false 0x0C#8 d)
  | .rdCodeWidth d => .hbus 32 (hbusWord false 0x10#8 d)
  | .rdNextCode d => .hbus 32 (hbusWord false 0x14#8 d)
  | .rdPrevCode d => .hbus 32 (hbusWord false 0x18#8 d)
  | .rdByteIndex d => .hbus 32 (hbusWord false 0x1C#8 d)
  | .rdBitIndex d => .hbus 32 (hbusWord false 0x20#8 d)
  | .rdOutCountLo d => .hbus 32 (hbusWord false 0x24#8 d)
  | .rdOutCountHi d => .hbus 32 (hbusWord false 0x28#8 d)
  | .rdErrCode d => .hbus 32 (hbusWord false 0x2C#8 d)
  | .wrStatus d => .hbus 32 (hbusWord true 0x0C#8 d)
  | .wrCodeWidth d => .hbus 32 (hbusWord true 0x10#8 d)
  | .wrNextCode d => .hbus 32 (hbusWord true 0x14#8 d)
  | .wrPrevCode d => .hbus 32 (hbusWord true 0x18#8 d)
  | .wrByteIndex d => .hbus 32 (hbusWord true 0x1C#8 d)
  | .wrBitIndex d => .hbus 32 (hbusWord true 0x20#8 d)
  | .wrOutCountLo d => .hbus 32 (hbusWord true 0x24#8 d)
  | .wrOutCountHi d => .hbus 32 (hbusWord true 0x28#8 d)
  | .wrErrCode d => .hbus 32 (hbusWord true 0x2C#8 d)
  | .rdUnmapped30 off d => .hbus 32 (hbusWord false off d)
  | .rdUnmapped40 off d => .hbus 32 (hbusWord false off d)
  | .rdUnmapped80 off d => .hbus 32 (hbusWord false off d)
  | .wrUnmapped30 off d => .hbus 32 (hbusWord true off d)
  | .wrUnmapped40 off d => .hbus 32 (hbusWord true off d)
  | .wrUnmapped80 off d => .hbus 32 (hbusWord true off d)
  | .refusedOff0 bits w => .hbus bits w
  | .refusedOff1 w => .hbus 32 w
  | .eod => .noCode
  | .first c => .code c
  | .firstClearM2 => .code 4#12
  | .firstClearM3 => .code 8#12
  | .firstClearM4 => .code 16#12
  | .firstClearM5 => .code 32#12
  | .firstClearM6 => .code 64#12
  | .firstClearM7 => .code 128#12
  | .firstClearM8 => .code 256#12
  | .firstBad c => .code c
  | .clearM2 => .code 4#12
  | .clearM3 => .code 8#12
  | .clearM4 => .code 16#12
  | .clearM5 => .code 32#12
  | .clearM6 => .code 64#12
  | .clearM7 => .code 128#12
  | .clearM8 => .code 256#12
  | .endM2 => .code 5#12
  | .endM3 => .code 9#12
  | .endM4 => .code 17#12
  | .endM5 => .code 33#12
  | .endM6 => .code 65#12
  | .endM7 => .code 129#12
  | .endM8 => .code 257#12
  | .litM2Noprev c => .code (c.setWidth 12)
  | .litM2 c => .code (c.setWidth 12)
  | .litM2Full c => .code (c.setWidth 12)
  | .litM3Noprev c => .code (c.setWidth 12)
  | .litM3 c => .code (c.setWidth 12)
  | .litM3Full c => .code (c.setWidth 12)
  | .litM4Noprev c => .code (c.setWidth 12)
  | .litM4 c => .code (c.setWidth 12)
  | .litM4Full c => .code (c.setWidth 12)
  | .litM5Noprev c => .code (c.setWidth 12)
  | .litM5 c => .code (c.setWidth 12)
  | .litM5Full c => .code (c.setWidth 12)
  | .litM6Noprev c => .code (c.setWidth 12)
  | .litM6 c => .code (c.setWidth 12)
  | .litM6Full c => .code (c.setWidth 12)
  | .litM7Noprev c => .code (c.setWidth 12)
  | .litM7 c => .code (c.setWidth 12)
  | .litM7Full c => .code (c.setWidth 12)
  | .litM8Noprev c => .code (c.setWidth 12)
  | .litM8 c => .code (c.setWidth 12)
  | .litM8Full c => .code (c.setWidth 12)
  | .dictNoprev c => .code c
  | .dict c => .code c
  | .dictFull c => .code c
  | .kwkwk c => .code c
  | .kwkwkNoprev c => .code c
  | .beyond c => .code c

/-! The state a row's condition asks for (the "condition" column of opcode_table.json). -/

/-- In PHASE = LOOP at minimum code size m. -/
def CodeCtx.loopAt (x : CodeCtx) (m : MinCode) : Bool := x.phase == .loop && x.minCode == m
/-- In PHASE = FIRST with the check on, at minimum code size m. -/
def CodeCtx.checkAt (x : CodeCtx) (m : MinCode) : Bool := x.phase == .first && x.firstCheck && x.minCode == m
/-- A dynamic code present in T: ROOT_SIZE + 2 ≤ c < NEXT_CODE. -/
def CodeCtx.dynamic (x : CodeCtx) (c : Code) : Bool :=
  x.phase == .loop && decide (rootSize x.minCode + 2 ≤ c.toNat) && decide (c.toNat < x.nextCode)

/-- The state admits the instruction: the row's condition holds of it. -/
def Ctx.admits (x : Ctx) : Instr → Bool
  | .start _ => !x.busy
  | .startBusy _ => x.busy
  | .first _ => x.codes.phase == .first && !x.codes.firstCheck
  | .firstClearM2 => x.codes.checkAt .m2
  | .firstClearM3 => x.codes.checkAt .m3
  | .firstClearM4 => x.codes.checkAt .m4
  | .firstClearM5 => x.codes.checkAt .m5
  | .firstClearM6 => x.codes.checkAt .m6
  | .firstClearM7 => x.codes.checkAt .m7
  | .firstClearM8 => x.codes.checkAt .m8
  | .firstBad c => x.codes.phase == .first && x.codes.firstCheck && c.toNat != rootSize x.codes.minCode
  | .clearM2 => x.codes.loopAt .m2
  | .clearM3 => x.codes.loopAt .m3
  | .clearM4 => x.codes.loopAt .m4
  | .clearM5 => x.codes.loopAt .m5
  | .clearM6 => x.codes.loopAt .m6
  | .clearM7 => x.codes.loopAt .m7
  | .clearM8 => x.codes.loopAt .m8
  | .endM2 => x.codes.loopAt .m2
  | .endM3 => x.codes.loopAt .m3
  | .endM4 => x.codes.loopAt .m4
  | .endM5 => x.codes.loopAt .m5
  | .endM6 => x.codes.loopAt .m6
  | .endM7 => x.codes.loopAt .m7
  | .endM8 => x.codes.loopAt .m8
  | .litM2Noprev _ => x.codes.loopAt .m2 && !x.codes.prevValid
  | .litM2 _ => x.codes.loopAt .m2 && x.codes.prevValid && decide (x.codes.nextCode < Config.tableSize)
  | .litM2Full _ => x.codes.loopAt .m2 && x.codes.prevValid && decide (x.codes.nextCode = Config.tableSize)
  | .litM3Noprev _ => x.codes.loopAt .m3 && !x.codes.prevValid
  | .litM3 _ => x.codes.loopAt .m3 && x.codes.prevValid && decide (x.codes.nextCode < Config.tableSize)
  | .litM3Full _ => x.codes.loopAt .m3 && x.codes.prevValid && decide (x.codes.nextCode = Config.tableSize)
  | .litM4Noprev _ => x.codes.loopAt .m4 && !x.codes.prevValid
  | .litM4 _ => x.codes.loopAt .m4 && x.codes.prevValid && decide (x.codes.nextCode < Config.tableSize)
  | .litM4Full _ => x.codes.loopAt .m4 && x.codes.prevValid && decide (x.codes.nextCode = Config.tableSize)
  | .litM5Noprev _ => x.codes.loopAt .m5 && !x.codes.prevValid
  | .litM5 _ => x.codes.loopAt .m5 && x.codes.prevValid && decide (x.codes.nextCode < Config.tableSize)
  | .litM5Full _ => x.codes.loopAt .m5 && x.codes.prevValid && decide (x.codes.nextCode = Config.tableSize)
  | .litM6Noprev _ => x.codes.loopAt .m6 && !x.codes.prevValid
  | .litM6 _ => x.codes.loopAt .m6 && x.codes.prevValid && decide (x.codes.nextCode < Config.tableSize)
  | .litM6Full _ => x.codes.loopAt .m6 && x.codes.prevValid && decide (x.codes.nextCode = Config.tableSize)
  | .litM7Noprev _ => x.codes.loopAt .m7 && !x.codes.prevValid
  | .litM7 _ => x.codes.loopAt .m7 && x.codes.prevValid && decide (x.codes.nextCode < Config.tableSize)
  | .litM7Full _ => x.codes.loopAt .m7 && x.codes.prevValid && decide (x.codes.nextCode = Config.tableSize)
  | .litM8Noprev _ => x.codes.loopAt .m8 && !x.codes.prevValid
  | .litM8 _ => x.codes.loopAt .m8 && x.codes.prevValid && decide (x.codes.nextCode < Config.tableSize)
  | .litM8Full _ => x.codes.loopAt .m8 && x.codes.prevValid && decide (x.codes.nextCode = Config.tableSize)
  | .dictNoprev c => x.codes.dynamic c && !x.codes.prevValid
  | .dict c => x.codes.dynamic c && x.codes.prevValid && decide (x.codes.nextCode < Config.tableSize)
  | .dictFull c => x.codes.dynamic c && x.codes.prevValid && decide (x.codes.nextCode = Config.tableSize)
  | .kwkwk c => x.codes.phase == .loop && x.codes.prevValid && decide (c.toNat = x.codes.nextCode)
  | .kwkwkNoprev c => x.codes.phase == .loop && !x.codes.prevValid && decide (c.toNat = x.codes.nextCode)
  | .beyond c => x.codes.phase == .loop && decide (x.codes.nextCode < c.toNat)
  | .abort _ _ => true
  | .ctrlNop _ => true
  | .wrConfig _ => true
  | .wrInLen _ => true
  | .rdCtrl _ => true
  | .rdConfig _ => true
  | .rdInLen _ => true
  | .rdStatus _ => true
  | .rdCodeWidth _ => true
  | .rdNextCode _ => true
  | .rdPrevCode _ => true
  | .rdByteIndex _ => true
  | .rdBitIndex _ => true
  | .rdOutCountLo _ => true
  | .rdOutCountHi _ => true
  | .rdErrCode _ => true
  | .wrStatus _ => true
  | .wrCodeWidth _ => true
  | .wrNextCode _ => true
  | .wrPrevCode _ => true
  | .wrByteIndex _ => true
  | .wrBitIndex _ => true
  | .wrOutCountLo _ => true
  | .wrOutCountHi _ => true
  | .wrErrCode _ => true
  | .rdUnmapped30 _ _ => true
  | .rdUnmapped40 _ _ => true
  | .rdUnmapped80 _ _ => true
  | .wrUnmapped30 _ _ => true
  | .wrUnmapped40 _ _ => true
  | .wrUnmapped80 _ _ => true
  | .refusedOff0 _ _ => true
  | .refusedOff1 _ => true
  | .eod => true

/-! One word of opcode_table.json on its own. A row of format CODE_w has no meaning without a state, so the table's
word is decoded in the state `tableCtx` names (log 2). -/

/-- The least minimum code size whose root codes, CLEAR or END the code can be; m = 8 for a code above them all. -/
def tableMinCode (c : Nat) : MinCode :=
  if c < 6 then .m2 else if c < 10 then .m3 else if c < 18 then .m4 else if c < 34 then .m5
  else if c < 66 then .m6 else if c < 130 then .m7 else .m8

/-- NEXT_CODE in that state: no registration yet for a code up to END, else one short of a full table. -/
def tableNextCode (c : Nat) : Nat := if c < 258 then rootSize (tableMinCode c) + 2 else 4095

/-- The state in which a code of the table stands alone: in LOOP, after a root code. -/
def tableCtx (c : Nat) : Ctx :=
  { busy := false
    codes := { phase := .loop, firstCheck := false, minCode := tableMinCode c, prevValid := true, nextCode := tableNextCode c } }

/-- Why a table word is no instruction. -/
inductive Reject
  /-- No format has that many bits. -/
  | noFormat
  /-- A bit is set above the format's highest. -/
  | highBits
deriving DecidableEq, Repr

/-- A table word of `nbits` bits: no bits at all is the end of the data, up to two bytes a code, more a 32-bit host transaction. -/
def tableEncoded (nbits w : Nat) : Except Reject Encoded :=
  if nbits = 0 then (if w = 0 then .ok .noCode else .error .highBits)
  else if nbits ≤ 16 then (if w < 2 ^ 12 then .ok (.code (BitVec.ofNat 12 w)) else .error .highBits)
  else if nbits ≤ 48 then (if w < 2 ^ 41 then .ok (.hbus 32 (BitVec.ofNat 41 w)) else .error .highBits)
  else .error .noFormat

/-- The instruction a word of opcode_table.json decodes to, numbered as the table numbers it. -/
def decodeTableWord (nbits w : Nat) : Option Instr :=
  match tableEncoded nbits w with
  | .ok e => some (decode (tableCtx w) e)
  | .error _ => none

end Sys2Proof
end

