-- ==== Sys2Proof/Machine/State.lean ====
section
/-! DEFINITION. The state of the block and of the agents around it, and the state after reset (spec/10_state.md). -/

namespace Sys2Proof.Machine

open Sys2Proof

/-- A byte memory: (address, byte) pairs in canonical form (Memory.wf, Ops.lean). -/
abbrev Memory := List Host.Cell

/-- The block's own state: the host-visible registers, the hidden engine state and the code table (R20, R38). -/
structure Block where
  /-- CONFIG (R22). -/
  config : Word
  /-- IN_LEN (R23). -/
  inLen : Word
  /-- STATUS.STATE (R25). -/
  state : RunState
  /-- STATUS.ERR_KIND (R25, R210). -/
  errKind : ErrKind
  /-- STATUS.ERR_DETAIL (R25, R211). -/
  errDetail : BitVec 4
  /-- CODE_WIDTH[3:0] (R26). -/
  codeWidth : BitVec 4
  /-- NEXT_CODE[12:0] (R27). -/
  nextCode : BitVec 13
  /-- PREV_CODE[11:0], PREV (R28). -/
  prev : Code
  /-- PREV_CODE[31], PREV_VALID (R28). -/
  prevValid : Bool
  /-- BYTE_INDEX (R29). -/
  byteIndex : Word
  /-- BIT_INDEX[2:0] (R29). -/
  bitIndex : BitVec 3
  /-- OUT_COUNT, whose halves are OUT_COUNT_LO and OUT_COUNT_HI (R30). -/
  outCount : BitVec 64
  /-- ERR_CODE[11:0] (R31). -/
  errCode : Code
  /-- PHASE, hidden (R32). -/
  phase : Phase
  /-- T, hidden (R34, R36). -/
  table : Table
deriving DecidableEq, Repr

/-- What an agent does next (R11, R180). Log 1. -/
inductive Event
  /-- The host issues a transaction of `bits` bits on HBUS (R88, R181). -/
  | host (bits : Nat) (word : HbusWord)
  /-- The engine has the turn: one code step if STATE = BUSY (R135). -/
  | engine
  /-- The sink from now on accepts the sequences offered to it, or does not (R195, R196). Log 3. -/
  | sink (accepts : Bool)
  /-- The host stores a byte at an address of IN (R60, R66, R244). -/
  | place (address : Word) (value : Byte)
  /-- The platform asserts rst (R240). -/
  | rst
deriving DecidableEq, Repr

/-- The block and the agents around it. -/
structure State where
  /-- The block's own state. -/
  blk : Block
  /-- IN, as the host has written it (R60). -/
  input : Memory
  /-- The addresses of IN the host has changed since START while STATE = BUSY, rising: their reads are draws (R66). Log 10. -/
  changed : List Nat
  /-- OUT: the indices emitted since the last START (R63). -/
  out : List Index
  /-- The indices the sink accepted before the last START, which stay with it (R190, R196). Log 4. -/
  sinkPast : List Index
  /-- The sink accepts what is offered to it (R196). Log 3. -/
  sinkAccepts : Bool
  /-- RDATA: the word the last host read returned (R88, R182). Log 5. -/
  rdata : Word
  /-- The refusal mark of the run (R181). Log 11. -/
  refusalMark : Bool
  /-- What the agents do next, soonest first; when nothing is listed the engine has the turn. Log 1. -/
  pending : List Event
  /-- How many free values have been drawn. Log 8. -/
  draws : Nat
deriving DecidableEq, Repr

/-- Why a step can stop. -/
inductive Fault
  /-- A code step needs the index sequence of a table entry that holds none. Raised by the meanings of LIT, DICT and KWKWK;
  no run without a refusal mark reaches it (R162). Safe. Log 14. -/
  | noSequence
deriving DecidableEq, Repr

/-- Why a step has no meaning. -/
inductive Refusal
  /-- The instruction has no meaning in this model yet. Raised by exec's arms only. Safe. -/
  | notModelled (mnemonic : String)
  /-- A code step is due while MIN_CODE_SIZE is outside 2 to 8, so that its code has no class. Raised by the engine's turn;
  no run without a refusal mark reaches it (R33). Safe. Log 15. -/
  | minCodeSize
deriving DecidableEq, Repr

/-- The reset value of every register (R38), with T as given: reset leaves it any value (R37, R241). -/
def Block.reset (t : Table) : Block where
  config := 0
  inLen := 0
  state := .idle
  errKind := .none
  errDetail := 0
  codeWidth := 0
  nextCode := 0
  prev := 0
  prevValid := false
  byteIndex := 0
  bitIndex := 0
  outCount := 0
  errCode := 0
  phase := .first
  table := t

/-- The machine right after reset (R38, R240): T is draw 0. The fields around the block hold what log 1, 3, 4, 5, 8, 9, 10
and 11 name. -/
def State.reset : State where
  blk := .reset (Config.drawTable 0)
  input := []
  changed := []
  out := []
  sinkPast := []
  sinkAccepts := true
  rdata := 0
  refusalMark := false
  pending := []
  draws := 1

end Sys2Proof.Machine
end

