-- ==== Sys2Proof/Machine/Operands.lean ====
section
/-! DEFINITION. The fields of the registers, the constants they determine and the state the decoder reads. -/

namespace Sys2Proof.Machine

open Sys2Proof

/-- The bits of CONFIG that exist; the others read 0 and ignore writes (R22, R185). -/
def configMask : Word := 0x01FF03FF#32

/-- CONFIG.MIN_CODE_SIZE, m (R22). -/
def minCodeSize (b : Block) : Nat := (b.config.extractLsb' 0 8).toNat
/-- CONFIG.FIRST_CHECK (R22). -/
def firstCheck (b : Block) : Bool := b.config.getLsbD 8
/-- CONFIG.IRQ_EN (R22). -/
def irqEn (b : Block) : Bool := b.config.getLsbD 9
/-- CONFIG.CT_SIZE (R22); no rule reads it. -/
def ctSize (b : Block) : BitVec 9 := b.config.extractLsb' 16 9

/-- ROOT_SIZE = 2^m (R33). CLEAR_CODE is the same number, END_CODE the next. -/
def rootSizeOf (b : Block) : Nat := 2 ^ minCodeSize b

/-- P, the cursor position in bits (R9, R29). -/
def cursor (b : Block) : Nat := 8 * b.byteIndex.toNat + b.bitIndex.toNat

/-- AVAIL(), the count of remaining bits (R111). Where the cursor stands past IN_LEN (never while BUSY, R29, R186)
nothing remains. -/
def avail (b : Block) : Nat := 8 * b.inLen.toNat - cursor b

/-- What the code class map reads (R84), if MIN_CODE_SIZE is one START accepts (R33). -/
def codeCtx (b : Block) : Option CodeCtx :=
  match minCodeOfNat (minCodeSize b) with
  | none => none
  | some m => some
    { phase := b.phase, firstCheck := firstCheck b, minCode := m, prevValid := b.prevValid, nextCode := b.nextCode.toNat }

/-- STATE = BUSY. -/
def isBusy (b : Block) : Bool := b.state == .busy

/-- The address of a transaction on the platform bus: LZW_BASE + OFF (R88). -/
def busAddress (w : HbusWord) : Nat := Config.lzwBase + (hbusOff w).toNat

end Sys2Proof.Machine
end

