-- ==== Sys2Proof/Machine/Flags.lean ====
section
/-! DEFINITION. The status word, the interrupt line and the words the registers read as (R25, R182, R210, R219). -/

namespace Sys2Proof.Machine

open Sys2Proof

/-- The number of a STATE (R25). -/
def stateBits : RunState → BitVec 2
  | .idle => 0 | .busy => 1 | .done => 2 | .error => 3

/-- The STATE of a number (R25). -/
def stateOfBits (v : BitVec 2) : RunState :=
  if v = 0 then .idle else if v = 1 then .busy else if v = 2 then .done else .error

/-- The number of an ERR_KIND (R210). -/
def errKindBits : ErrKind → BitVec 3
  | .none => 0 | .invalidSignature => 1 | .unsupportedVersion => 2 | .unexpectedEndOfData => 3
  | .unknownBlockIntroducer => 4 | .protocolError => 5 | .corruptedStream => 6 | .validationMismatch => 7

/-- The ERR_KIND of a number (R210). -/
def errKindOfBits (v : BitVec 3) : ErrKind :=
  if v = 0 then .none else if v = 1 then .invalidSignature else if v = 2 then .unsupportedVersion
  else if v = 3 then .unexpectedEndOfData else if v = 4 then .unknownBlockIntroducer
  else if v = 5 then .protocolError else if v = 6 then .corruptedStream else .validationMismatch

/-- STATUS: STATE in bits 1 to 0, ERR_KIND in 10 to 8, ERR_DETAIL in 19 to 16, the rest 0 (R25, R182). -/
def statusWord (b : Block) : Word :=
  (stateBits b.state).setWidth 32 ||| (errKindBits b.errKind).setWidth 32 <<< 8 ||| b.errDetail.setWidth 32 <<< 16

/-- PREV_CODE: PREV in bits 11 to 0, PREV_VALID in bit 31, the rest 0 (R28, R182). -/
def prevCodeWord (b : Block) : Word :=
  b.prev.setWidth 32 ||| (BitVec.ofBool b.prevValid).setWidth 32 <<< 31

/-- OUT_COUNT[31:0] (R30). -/
def outCountLo (b : Block) : Word := b.outCount.extractLsb' 0 32
/-- OUT_COUNT[63:32] (R30). -/
def outCountHi (b : Block) : Word := b.outCount.extractLsb' 32 32

/-- A decode has ended: STATE is DONE or ERROR. -/
def ended (b : Block) : Bool := b.state == .done || b.state == .error

/-- The irq line (R219). -/
def irq (b : Block) : Bool := irqEn b && ended b

/-- The least number of bits that hold n (R7). -/
def bitLen (n : Nat) : Nat := if n = 0 then 0 else Nat.log2 n + 1

end Sys2Proof.Machine
end

