-- ==== Sys2Proof/Machine/Ops.lean ====
section
/-! DEFINITION. The operations over IN, the cursor, the code table, the output and the registers that the meanings share. -/

namespace Sys2Proof.Machine

open Sys2Proof

/-- How a step ends. -/
abbrev Result := Host.Outcome State Fault Refusal

/-! ## IN (R60, R61) -/

/-- What a byte of IN that the host has not written reads as. DESIGN CHOICE, unsafe: log 9. -/
def unlistedByte : Byte := 0

/-- The byte at an address. -/
def Memory.read : Memory → Nat → Byte
  | [], _ => unlistedByte
  | (k, v) :: rest, a => if k = a then v else Memory.read rest a

/-- Store a byte, keeping the canonical form. -/
def Memory.write : Memory → Nat → Byte → Memory
  | [], a, b => if b = unlistedByte then [] else [(a, b)]
  | (k, v) :: rest, a, b =>
    if k < a then (k, v) :: Memory.write rest a b
    else if k = a then (if b = unlistedByte then rest else (a, b) :: rest)
    else (if b = unlistedByte then (k, v) :: rest else (a, b) :: (k, v) :: rest)

/-- The canonical form: addresses strictly rising, no entry equal to what an unlisted address reads as. -/
abbrev Memory.wf (m : Memory) : Prop :=
  m.Pairwise (fun x y => x.1 < y.1) ∧ ∀ c ∈ m, c.2 ≠ unlistedByte

/-- Add an address to a rising list of addresses. -/
def insertAddress : List Nat → Nat → List Nat
  | [], a => [a]
  | k :: rest, a => if k < a then k :: insertAddress rest a else if k = a then k :: rest else a :: k :: rest

/-- The host stores a byte of IN (R60). While STATE = BUSY a byte below IN_LEN whose value changes joins the changed ones
(R66), log 10. -/
def placeByte (a : Word) (v : Byte) (s : State) : State :=
  { s with
    input := Memory.write s.input a.toNat v
    changed :=
      if isBusy s.blk ∧ a.toNat < s.blk.inLen.toNat ∧ Memory.read s.input a.toNat ≠ v then
        insertAddress s.changed a.toNat
      else s.changed }

/-- MemRead(a, 1): the byte of IN, or a fresh draw where the host has changed it during the decode (R61, R66). -/
def memRead (a : Nat) (s : State) : Byte × State :=
  if a ∈ s.changed then ((Config.draw s.draws).setWidth 8, { s with draws := s.draws + 1 })
  else (Memory.read s.input a, s)

/-! ## The bit reader (R110 to R117) -/

/-- The cursor moves by one bit (R112). -/
def nextBit (b : Block) : Block :=
  if b.bitIndex = 7 then { b with bitIndex := 0, byteIndex := b.byteIndex + 1 }
  else { b with bitIndex := b.bitIndex + 1 }

/-- One turn of the loop of R112: the bit at the cursor, and the cursor moved. -/
def readBit (s : State) : Bool × State :=
  let r := memRead s.blk.byteIndex.toNat s
  (r.1.getLsbD s.blk.bitIndex.toNat, { r.2 with blk := nextBit r.2.blk })

/-- ReadBits(n): the bit read first is the least significant (R112). -/
def readBits : Nat → State → Nat × State
  | 0, s => (0, s)
  | n + 1, s =>
    let first := readBit s
    let rest := readBits n first.2
    (first.1.toNat + 2 * rest.1, rest.2)

/-- The code at the cursor, of CODE_WIDTH bits (R80, R81, R115). -/
def codeAtCursor (s : State) : Code := BitVec.ofNat 12 (readBits s.blk.codeWidth.toNat s).1

/-- The state once the step's code is read: P has advanced by CODE_WIDTH (R136). -/
def codeRead (s : State) : State := (readBits s.blk.codeWidth.toNat s).2

/-! ## The output (R63, R148) -/

/-- Emit(x). -/
def emit (x : Index) (s : State) : State :=
  { s with out := s.out ++ [x], blk := { s.blk with outCount := s.blk.outCount + 1 } }

/-- Emit the elements of a sequence, the first first (R64). -/
def emitAll : List Index → State → State
  | [], s => s
  | x :: xs, s => emitAll xs (emit x s)

/-! ## The code table (R34, R131 to R133) -/

/-- Entry c of the initial table (R35). -/
def initEntry (root c : Nat) : Entry :=
  if c < root then .seq (BitVec.ofNat 8 c) []
  else if c = root then .clear
  else if c = root + 1 then .endMark
  else .absent

/-- The last n entries of the table whose entry c is `f c`. -/
def lastEntries (f : Nat → Entry) : Nat → List Entry
  | 0 => []
  | n + 1 => f (4095 - n) :: lastEntries f n

theorem lastEntries_length (f : Nat → Entry) (n : Nat) : (lastEntries f n).length = n := by
  induction n with
  | zero => rfl
  | succ n ih => rw [lastEntries, List.length_cons, ih]

/-- The table whose entry c is `f c`. -/
def tabulate (f : Nat → Entry) : Table := ⟨⟨lastEntries f 4096⟩, lastEntries_length f 4096⟩

/-- T with entry n set. -/
def setEntry (t : Table) (n : Nat) (e : Entry) : Table := if h : n < 4096 then t.set n e h else t

/-- TableInit() for a ROOT_SIZE (R131). Entries above END are Absent: log 13. -/
def initTable (root : Nat) : Table := tabulate (initEntry root)

/-- T[c] for a code c. -/
def entryAt (t : Table) (c : Code) : Entry := t[c.toNat]

/-- TableInit, and NEXT_CODE and CODE_WIDTH at their initial values (R130, R139). -/
def freshTable (b : Block) : Block :=
  { b with
    table := initTable (rootSizeOf b)
    nextCode := BitVec.ofNat 13 (rootSizeOf b + 2)
    codeWidth := BitVec.ofNat 4 (minCodeSize b + 1) }

/-- Grow() (R133). -/
def grow (b : Block) : Block :=
  if b.nextCode.toNat = 2 ^ b.codeWidth.toNat ∧ b.codeWidth.toNat < Config.maxCodeWidth then
    { b with codeWidth := b.codeWidth + 1 }
  else b

/-- Register(head ++ tail) (R132). The decoder lets no meaning call it at NEXT_CODE = 4096 (R134). -/
def register (head : Index) (tail : List Index) (b : Block) : Block :=
  grow { b with
    table := setEntry b.table b.nextCode.toNat (.seq head tail)
    nextCode := b.nextCode + 1 }

/-- PREV <- c; PREV_VALID <- 1 (R147). -/
def setPrev (c : Code) (b : Block) : Block := { b with prev := c, prevValid := true }

/-! ## Errors (R210 to R217) -/

/-- ErrorEntry(K, d, c) (R212): the one way into ERROR. -/
def errorEntry (k : ErrKind) (detail : BitVec 4) (c : Code) (b : Block) : Block :=
  { b with state := .error, errKind := k, errDetail := detail, errCode := c }

/-- A step that read no code raises an error (R136): only ErrorEntry takes effect. -/
def raiseNoCode (k : ErrKind) (detail : BitVec 4) (s : State) : State :=
  { s with blk := errorEntry k detail 0 s.blk }

/-- A step that read a code raises an error: its writes are discarded and ErrorEntry takes effect (R10, R212, R213).
Draws the step consumed stay consumed, so that no later read sees one again (log 8). -/
def raise (k : ErrKind) (detail : BitVec 4) (c : Code) (s : State) : State :=
  { s with blk := errorEntry k detail c s.blk, draws := (codeRead s).draws }

/-! ## Commands, reset and refused transactions -/

/-- The engine and result registers at 0, as START, ABORT and reset write them (R130, R192). -/
def clearResults (b : Block) : Block :=
  { b with
    outCount := 0, errKind := .none, errDetail := 0, errCode := 0, codeWidth := 0, nextCode := 0
    prev := 0, prevValid := false, byteIndex := 0, bitIndex := 0 }

/-- INIT's writes to the block (R130): the error exit for a MIN_CODE_SIZE outside 2 to 8, else a fresh table and BUSY. -/
def initBlock (b : Block) : Block :=
  if minCodeSize b < Config.leastMinCode ∨ Config.greatestMinCode < minCodeSize b then
    errorEntry .protocolError 3 0 (clearResults b)
  else { freshTable (clearResults b) with prevValid := false, phase := .first, state := .busy }

/-- INIT (R130): a new, empty output sequence, what was emitted staying with the sink (R196); no byte of IN is changed yet. -/
def init (s : State) : State :=
  { s with blk := initBlock s.blk, out := [], sinkPast := s.sinkPast ++ s.out, changed := [] }

/-- ABORT (R192). T becomes any value (R37). -/
def abortBlock (s : State) : State :=
  { s with
    blk := { clearResults s.blk with state := .idle, phase := .first, table := Config.drawTable s.draws }
    draws := s.draws + 1 }

/-- rst (R240): every register at its reset value, T any value; what is around the block stays (log 18). -/
def resetBlock (s : State) : State :=
  { s with blk := .reset (Config.drawTable s.draws), draws := s.draws + 1 }

/-- A block of which every register and T is a draw, from the n-th on: reserved bits of CONFIG still read 0. -/
def drawnBlock (n : Nat) : Block where
  config := (Config.draw n).setWidth 32 &&& configMask
  inLen := (Config.draw (n + 1)).setWidth 32
  state := stateOfBits ((Config.draw (n + 2)).setWidth 2)
  errKind := errKindOfBits ((Config.draw (n + 3)).setWidth 3)
  errDetail := (Config.draw (n + 4)).setWidth 4
  codeWidth := (Config.draw (n + 5)).setWidth 4
  nextCode := (Config.draw (n + 6)).setWidth 13
  prev := (Config.draw (n + 7)).setWidth 12
  prevValid := (Config.draw (n + 8)).getLsbD 0
  byteIndex := (Config.draw (n + 9)).setWidth 32
  bitIndex := (Config.draw (n + 10)).setWidth 3
  outCount := Config.draw (n + 11)
  errCode := (Config.draw (n + 12)).setWidth 12
  phase := if (Config.draw (n + 13)).getLsbD 0 then .loop else .first
  table := Config.drawTable (n + 14)

/-- A refused transaction (R181): the refusal mark is set for the rest of the run, and since the transaction "has no specified
effect on any register", every register, T and RDATA are free values from here on (log 11). -/
def refuse (s : State) : State :=
  { s with
    blk := drawnBlock s.draws
    rdata := (Config.draw (s.draws + 15)).setWidth 32
    refusalMark := true
    draws := s.draws + 16 }

/-! ## Host reads and writes (R182 to R187) -/

/-- A read that returns the register exactly (R39, R182, R183). -/
def readExact (v : Word) (s : State) : State := { s with rdata := v }

/-- A read of an engine or result register: exact unless STATE = BUSY, then any value (R39, R249), log 6. -/
def readResult (v : Word) (s : State) : State :=
  if isBusy s.blk then { s with rdata := (Config.draw s.draws).setWidth 32, draws := s.draws + 1 }
  else { s with rdata := v }

/-- A write to CONFIG (R185). -/
def writeConfig (d : Word) (b : Block) : Block := if isBusy b then b else { b with config := d &&& configMask }

/-- A write to IN_LEN (R186). -/
def writeInLen (d : Word) (b : Block) : Block := if isBusy b then b else { b with inLen := d }

end Sys2Proof.Machine
end

