-- ==== Sys2Proof/Machine/CodeControl.lean ====
section
/-! DEFINITION. Code steps that emit nothing: the end of the data, the first code, CLEAR and END (spec/41_lzw_decoder.md R136 to R140). -/

namespace Sys2Proof.Machine

open Sys2Proof

/-- The first code is taken, and its value has no further effect (R137, R138). -/
def acceptFirst (s : State) : State :=
  let t := codeRead s
  { t with blk := { t.blk with phase := .loop } }

/-- CLEAR (R139): the initial table, and no previous code; PREV keeps its value (R28). -/
def clearTable (s : State) : State :=
  let t := codeRead s
  { t with blk := { freshTable t.blk with prevValid := false } }

/-- END (R140). -/
def endDecode (s : State) : State :=
  let t := codeRead s
  { t with blk := { t.blk with state := .done } }

/-- EOD (R136). -/
def execEod (s : State) : Result :=
  if avail s.blk = 0 then .next (raiseNoCode .unexpectedEndOfData 6 s)
  else .next (raiseNoCode .unexpectedEndOfData 7 s)

/-- FIRST (R137: any value is discarded). -/
def execFirst (_code : Code) (s : State) : Result :=
  .next (acceptFirst s)

/-- FIRST_CLEAR_m2 (R138). -/
def execFirstClearM2 (s : State) : Result :=
  .next (acceptFirst s)

/-- FIRST_CLEAR_m3 (R138). -/
def execFirstClearM3 (s : State) : Result :=
  .next (acceptFirst s)

/-- FIRST_CLEAR_m4 (R138). -/
def execFirstClearM4 (s : State) : Result :=
  .next (acceptFirst s)

/-- FIRST_CLEAR_m5 (R138). -/
def execFirstClearM5 (s : State) : Result :=
  .next (acceptFirst s)

/-- FIRST_CLEAR_m6 (R138). -/
def execFirstClearM6 (s : State) : Result :=
  .next (acceptFirst s)

/-- FIRST_CLEAR_m7 (R138). -/
def execFirstClearM7 (s : State) : Result :=
  .next (acceptFirst s)

/-- FIRST_CLEAR_m8 (R138). -/
def execFirstClearM8 (s : State) : Result :=
  .next (acceptFirst s)

/-- FIRST_BAD (R138). -/
def execFirstBad (code : Code) (s : State) : Result :=
  .next (raise .protocolError 1 code s)

/-- CLEAR_m2 (R139). -/
def execClearM2 (s : State) : Result :=
  .next (clearTable s)

/-- CLEAR_m3 (R139). -/
def execClearM3 (s : State) : Result :=
  .next (clearTable s)

/-- CLEAR_m4 (R139). -/
def execClearM4 (s : State) : Result :=
  .next (clearTable s)

/-- CLEAR_m5 (R139). -/
def execClearM5 (s : State) : Result :=
  .next (clearTable s)

/-- CLEAR_m6 (R139). -/
def execClearM6 (s : State) : Result :=
  .next (clearTable s)

/-- CLEAR_m7 (R139). -/
def execClearM7 (s : State) : Result :=
  .next (clearTable s)

/-- CLEAR_m8 (R139). -/
def execClearM8 (s : State) : Result :=
  .next (clearTable s)

/-- END_m2 (R140). -/
def execEndM2 (s : State) : Result :=
  .next (endDecode s)

/-- END_m3 (R140). -/
def execEndM3 (s : State) : Result :=
  .next (endDecode s)

/-- END_m4 (R140). -/
def execEndM4 (s : State) : Result :=
  .next (endDecode s)

/-- END_m5 (R140). -/
def execEndM5 (s : State) : Result :=
  .next (endDecode s)

/-- END_m6 (R140). -/
def execEndM6 (s : State) : Result :=
  .next (endDecode s)

/-- END_m7 (R140). -/
def execEndM7 (s : State) : Result :=
  .next (endDecode s)

/-- END_m8 (R140). -/
def execEndM8 (s : State) : Result :=
  .next (endDecode s)

end Sys2Proof.Machine
end

