-- ==== Sys2Proof/Machine/Command.lean ====
section
/-! DEFINITION. The commands: writes to CTRL (spec/42_host_interface.md R189 to R193). -/

namespace Sys2Proof.Machine

open Sys2Proof

/-- START (R190, R130). -/
def execStart (_hi : BitVec 30) (s : State) : Result :=
  .next (init s)

/-- START_BUSY (R191: ignored). -/
def execStartBusy (_hi : BitVec 30) (s : State) : Result :=
  .next s

/-- ABORT (R192). -/
def execAbort (_start : Bool) (_hi : BitVec 30) (s : State) : Result :=
  .next (abortBlock s)

/-- CTRL_NOP (R193: no effect). -/
def execCtrlNop (_hi : BitVec 30) (s : State) : Result :=
  .next s

end Sys2Proof.Machine
end

