-- ==== Sys2Proof/Machine/Kwkwk.lean ====
section
/-! DEFINITION. Codes at and beyond NEXT_CODE (spec/41_lzw_decoder.md R144 to R146). -/

namespace Sys2Proof.Machine

open Sys2Proof

/-- KWKWK (R144: the previous sequence and its own first index, emitted and registered; the sink may hold the step, R196). -/
def execKwkwk (code : Code) (s : State) : Result :=
  match entryAt s.blk.table s.blk.prev with
  | .seq p ps =>
    if s.sinkAccepts then
      let t := emitAll (p :: (ps ++ [p])) (codeRead s)
      .next { t with blk := setPrev code (register p (ps ++ [p]) t.blk) }
    else .next s
  | _ => .fault .noSequence

/-- KWKWK_NOPREV (R145). -/
def execKwkwkNoprev (code : Code) (s : State) : Result :=
  .next (raise .corruptedStream 5 code s)

/-- BEYOND (R146). -/
def execBeyond (code : Code) (s : State) : Result :=
  .next (raise .corruptedStream 4 code s)

end Sys2Proof.Machine
end

