-- ==== Sys2Proof/Machine/Present.lean ====
section
/-! DEFINITION. Codes present in the table, LIT and DICT (spec/41_lzw_decoder.md R141 to R143). -/

namespace Sys2Proof.Machine

open Sys2Proof

/-- A present code with no previous code (R141). The sink holds the step until it accepts the sequence (R196). -/
def presentNoPrev (c : Code) (s : State) : Result :=
  match entryAt s.blk.table c with
  | .seq x xs =>
    if s.sinkAccepts then
      let t := emitAll (x :: xs) (codeRead s)
      .next { t with blk := setPrev c t.blk }
    else .next s
  | _ => .fault .noSequence

/-- A present code with a previous code and room in the table (R142): the previous sequence and the first index of this one
are registered. The sink holds the step until it accepts the sequence (R196). -/
def presentRegister (c : Code) (s : State) : Result :=
  match entryAt s.blk.table c, entryAt s.blk.table s.blk.prev with
  | .seq x xs, .seq p ps =>
    if s.sinkAccepts then
      let t := emitAll (x :: xs) (codeRead s)
      .next { t with blk := setPrev c (register p (ps ++ [x]) t.blk) }
    else .next s
  | _, _ => .fault .noSequence

/-- A present code with a previous code in a full table (R143, R134): an error before any emission. -/
def presentFull (c : Code) (s : State) : Result := .next (raise .protocolError 2 c s)

/-- LIT_m2_NOPREV (R141). -/
def execLitM2Noprev (root : BitVec 2) (s : State) : Result :=
  presentNoPrev (root.setWidth 12) s

/-- LIT_m2 (R142). -/
def execLitM2 (root : BitVec 2) (s : State) : Result :=
  presentRegister (root.setWidth 12) s

/-- LIT_m2_FULL (R143). -/
def execLitM2Full (root : BitVec 2) (s : State) : Result :=
  presentFull (root.setWidth 12) s

/-- LIT_m3_NOPREV (R141). -/
def execLitM3Noprev (root : BitVec 3) (s : State) : Result :=
  presentNoPrev (root.setWidth 12) s

/-- LIT_m3 (R142). -/
def execLitM3 (root : BitVec 3) (s : State) : Result :=
  presentRegister (root.setWidth 12) s

/-- LIT_m3_FULL (R143). -/
def execLitM3Full (root : BitVec 3) (s : State) : Result :=
  presentFull (root.setWidth 12) s

/-- LIT_m4_NOPREV (R141). -/
def execLitM4Noprev (root : BitVec 4) (s : State) : Result :=
  presentNoPrev (root.setWidth 12) s

/-- LIT_m4 (R142). -/
def execLitM4 (root : BitVec 4) (s : State) : Result :=
  presentRegister (root.setWidth 12) s

/-- LIT_m4_FULL (R143). -/
def execLitM4Full (root : BitVec 4) (s : State) : Result :=
  presentFull (root.setWidth 12) s

/-- LIT_m5_NOPREV (R141). -/
def execLitM5Noprev (root : BitVec 5) (s : State) : Result :=
  presentNoPrev (root.setWidth 12) s

/-- LIT_m5 (R142). -/
def execLitM5 (root : BitVec 5) (s : State) : Result :=
  presentRegister (root.setWidth 12) s

/-- LIT_m5_FULL (R143). -/
def execLitM5Full (root : BitVec 5) (s : State) : Result :=
  presentFull (root.setWidth 12) s

/-- LIT_m6_NOPREV (R141). -/
def execLitM6Noprev (root : BitVec 6) (s : State) : Result :=
  presentNoPrev (root.setWidth 12) s

/-- LIT_m6 (R142). -/
def execLitM6 (root : BitVec 6) (s : State) : Result :=
  presentRegister (root.setWidth 12) s

/-- LIT_m6_FULL (R143). -/
def execLitM6Full (root : BitVec 6) (s : State) : Result :=
  presentFull (root.setWidth 12) s

/-- LIT_m7_NOPREV (R141). -/
def execLitM7Noprev (root : BitVec 7) (s : State) : Result :=
  presentNoPrev (root.setWidth 12) s

/-- LIT_m7 (R142). -/
def execLitM7 (root : BitVec 7) (s : State) : Result :=
  presentRegister (root.setWidth 12) s

/-- LIT_m7_FULL (R143). -/
def execLitM7Full (root : BitVec 7) (s : State) : Result :=
  presentFull (root.setWidth 12) s

/-- LIT_m8_NOPREV (R141). -/
def execLitM8Noprev (root : BitVec 8) (s : State) : Result :=
  presentNoPrev (root.setWidth 12) s

/-- LIT_m8 (R142). -/
def execLitM8 (root : BitVec 8) (s : State) : Result :=
  presentRegister (root.setWidth 12) s

/-- LIT_m8_FULL (R143). -/
def execLitM8Full (root : BitVec 8) (s : State) : Result :=
  presentFull (root.setWidth 12) s

/-- DICT_NOPREV (R141). -/
def execDictNoprev (code : Code) (s : State) : Result :=
  presentNoPrev code s

/-- DICT (R142). -/
def execDict (code : Code) (s : State) : Result :=
  presentRegister code s

/-- DICT_FULL (R143). -/
def execDictFull (code : Code) (s : State) : Result :=
  presentFull code s

end Sys2Proof.Machine
end

