-- ==== Sys2Proof/Machine/Refused.lean ====
section
/-! DEFINITION. Refused transactions (spec/42_host_interface.md R181; log 11, 12). -/

namespace Sys2Proof.Machine

open Sys2Proof

/-- REFUSED_OFF0 (R181: OFF[0] = 1, or an access that is not 32 bits wide). -/
def execRefusedOff0 (_bits : Nat) (_word : HbusWord) (s : State) : Result :=
  .next (refuse s)

/-- REFUSED_OFF1 (R181: OFF[1] = 1). -/
def execRefusedOff1 (_word : HbusWord) (s : State) : Result :=
  .next (refuse s)

end Sys2Proof.Machine
end

