-- ==== Sys2Proof/Machine/RegisterRead.lean ====
section
/-! DEFINITION. Reads of the registers (spec/42_host_interface.md R182 to R184; spec/10_state.md R39). -/

namespace Sys2Proof.Machine

open Sys2Proof

/-- RD_CTRL (R182). -/
def execRdCtrl (_wdata : Word) (s : State) : Result :=
  .next (readExact 0 s)

/-- RD_CONFIG (R182). -/
def execRdConfig (_wdata : Word) (s : State) : Result :=
  .next (readExact (s.blk.config &&& configMask) s)

/-- RD_IN_LEN (R182). -/
def execRdInLen (_wdata : Word) (s : State) : Result :=
  .next (readExact s.blk.inLen s)

/-- RD_STATUS (R182). -/
def execRdStatus (_wdata : Word) (s : State) : Result :=
  .next (readExact (statusWord s.blk) s)

/-- RD_CODE_WIDTH (R182, R39). -/
def execRdCodeWidth (_wdata : Word) (s : State) : Result :=
  .next (readResult (s.blk.codeWidth.setWidth 32) s)

/-- RD_NEXT_CODE (R182, R39). -/
def execRdNextCode (_wdata : Word) (s : State) : Result :=
  .next (readResult (s.blk.nextCode.setWidth 32) s)

/-- RD_PREV_CODE (R182, R39). -/
def execRdPrevCode (_wdata : Word) (s : State) : Result :=
  .next (readResult (prevCodeWord s.blk) s)

/-- RD_BYTE_INDEX (R182, R39). -/
def execRdByteIndex (_wdata : Word) (s : State) : Result :=
  .next (readResult s.blk.byteIndex s)

/-- RD_BIT_INDEX (R182, R39). -/
def execRdBitIndex (_wdata : Word) (s : State) : Result :=
  .next (readResult (s.blk.bitIndex.setWidth 32) s)

/-- RD_OUT_COUNT_LO (R182, R39). -/
def execRdOutCountLo (_wdata : Word) (s : State) : Result :=
  .next (readResult (outCountLo s.blk) s)

/-- RD_OUT_COUNT_HI (R182, R39). -/
def execRdOutCountHi (_wdata : Word) (s : State) : Result :=
  .next (readResult (outCountHi s.blk) s)

/-- RD_ERR_CODE (R182, R39). -/
def execRdErrCode (_wdata : Word) (s : State) : Result :=
  .next (readResult (s.blk.errCode.setWidth 32) s)

/-- RD_UNMAPPED_30 (R183). -/
def execRdUnmapped30 (_off : BitVec 8) (_wdata : Word) (s : State) : Result :=
  .next (readExact 0 s)

/-- RD_UNMAPPED_40 (R183). -/
def execRdUnmapped40 (_off : BitVec 8) (_wdata : Word) (s : State) : Result :=
  .next (readExact 0 s)

/-- RD_UNMAPPED_80 (R183). -/
def execRdUnmapped80 (_off : BitVec 8) (_wdata : Word) (s : State) : Result :=
  .next (readExact 0 s)

end Sys2Proof.Machine
end

