-- ==== Sys2Proof/Machine/RegisterWrite.lean ====
section
/-! DEFINITION. Writes to the registers (spec/42_host_interface.md R185 to R187). -/

namespace Sys2Proof.Machine

open Sys2Proof

/-- WR_CONFIG (R185). -/
def execWrConfig (wdata : Word) (s : State) : Result :=
  .next { s with blk := writeConfig wdata s.blk }

/-- WR_IN_LEN (R186). -/
def execWrInLen (wdata : Word) (s : State) : Result :=
  .next { s with blk := writeInLen wdata s.blk }

/-- WR_STATUS (R187: a read-only register, the write is ignored). -/
def execWrStatus (_wdata : Word) (s : State) : Result :=
  .next s

/-- WR_CODE_WIDTH (R187: a read-only register, the write is ignored). -/
def execWrCodeWidth (_wdata : Word) (s : State) : Result :=
  .next s

/-- WR_NEXT_CODE (R187: a read-only register, the write is ignored). -/
def execWrNextCode (_wdata : Word) (s : State) : Result :=
  .next s

/-- WR_PREV_CODE (R187: a read-only register, the write is ignored). -/
def execWrPrevCode (_wdata : Word) (s : State) : Result :=
  .next s

/-- WR_BYTE_INDEX (R187: a read-only register, the write is ignored). -/
def execWrByteIndex (_wdata : Word) (s : State) : Result :=
  .next s

/-- WR_BIT_INDEX (R187: a read-only register, the write is ignored). -/
def execWrBitIndex (_wdata : Word) (s : State) : Result :=
  .next s

/-- WR_OUT_COUNT_LO (R187: a read-only register, the write is ignored). -/
def execWrOutCountLo (_wdata : Word) (s : State) : Result :=
  .next s

/-- WR_OUT_COUNT_HI (R187: a read-only register, the write is ignored). -/
def execWrOutCountHi (_wdata : Word) (s : State) : Result :=
  .next s

/-- WR_ERR_CODE (R187: a read-only register, the write is ignored). -/
def execWrErrCode (_wdata : Word) (s : State) : Result :=
  .next s

/-- WR_UNMAPPED_30 (R187: an unmapped offset, the write is ignored). -/
def execWrUnmapped30 (_off : BitVec 8) (_wdata : Word) (s : State) : Result :=
  .next s

/-- WR_UNMAPPED_40 (R187: an unmapped offset, the write is ignored). -/
def execWrUnmapped40 (_off : BitVec 8) (_wdata : Word) (s : State) : Result :=
  .next s

/-- WR_UNMAPPED_80 (R187: an unmapped offset, the write is ignored). -/
def execWrUnmapped80 (_off : BitVec 8) (_wdata : Word) (s : State) : Result :=
  .next s

end Sys2Proof.Machine
end

