-- ==== Sys2Proof/Machine/Dispatch.lean ====
section
/-! DEFINITION. The meaning of every instruction: one arm per constructor. -/

namespace Sys2Proof.Machine

open Sys2Proof

def exec (i : Instr) (s : State) : Host.Outcome State Fault Refusal :=
  match i with
  | .start hi => Sys2Proof.Machine.execStart hi s
  | .startBusy hi => Sys2Proof.Machine.execStartBusy hi s
  | .abort start hi => Sys2Proof.Machine.execAbort start hi s
  | .ctrlNop hi => Sys2Proof.Machine.execCtrlNop hi s
  | .wrConfig wdata => Sys2Proof.Machine.execWrConfig wdata s
  | .wrInLen wdata => Sys2Proof.Machine.execWrInLen wdata s
  | .rdCtrl wdata => Sys2Proof.Machine.execRdCtrl wdata s
  | .rdConfig wdata => Sys2Proof.Machine.execRdConfig wdata s
  | .rdInLen wdata => Sys2Proof.Machine.execRdInLen wdata s
  | .rdStatus wdata => Sys2Proof.Machine.execRdStatus wdata s
  | .rdCodeWidth wdata => Sys2Proof.Machine.execRdCodeWidth wdata s
  | .rdNextCode wdata => Sys2Proof.Machine.execRdNextCode wdata s
  | .rdPrevCode wdata => Sys2Proof.Machine.execRdPrevCode wdata s
  | .rdByteIndex wdata => Sys2Proof.Machine.execRdByteIndex wdata s
  | .rdBitIndex wdata => Sys2Proof.Machine.execRdBitIndex wdata s
  | .rdOutCountLo wdata => Sys2Proof.Machine.execRdOutCountLo wdata s
  | .rdOutCountHi wdata => Sys2Proof.Machine.execRdOutCountHi wdata s
  | .rdErrCode wdata => Sys2Proof.Machine.execRdErrCode wdata s
  | .wrStatus wdata => Sys2Proof.Machine.execWrStatus wdata s
  | .wrCodeWidth wdata => Sys2Proof.Machine.execWrCodeWidth wdata s
  | .wrNextCode wdata => Sys2Proof.Machine.execWrNextCode wdata s
  | .wrPrevCode wdata => Sys2Proof.Machine.execWrPrevCode wdata s
  | .wrByteIndex wdata => Sys2Proof.Machine.execWrByteIndex wdata s
  | .wrBitIndex wdata => Sys2Proof.Machine.execWrBitIndex wdata s
  | .wrOutCountLo wdata => Sys2Proof.Machine.execWrOutCountLo wdata s
  | .wrOutCountHi wdata => Sys2Proof.Machine.execWrOutCountHi wdata s
  | .wrErrCode wdata => Sys2Proof.Machine.execWrErrCode wdata s
  | .rdUnmapped30 off wdata => Sys2Proof.Machine.execRdUnmapped30 off wdata s
  | .rdUnmapped40 off wdata => Sys2Proof.Machine.execRdUnmapped40 off wdata s
  | .rdUnmapped80 off wdata => Sys2Proof.Machine.execRdUnmapped80 off wdata s
  | .wrUnmapped30 off wdata => Sys2Proof.Machine.execWrUnmapped30 off wdata s
  | .wrUnmapped40 off wdata => Sys2Proof.Machine.execWrUnmapped40 off wdata s
  | .wrUnmapped80 off wdata => Sys2Proof.Machine.execWrUnmapped80 off wdata s
  | .refusedOff0 bits word => Sys2Proof.Machine.execRefusedOff0 bits word s
  | .refusedOff1 word => Sys2Proof.Machine.execRefusedOff1 word s
  | .eod => Sys2Proof.Machine.execEod s
  | .first code => Sys2Proof.Machine.execFirst code s
  | .firstClearM2 => Sys2Proof.Machine.execFirstClearM2 s
  | .firstClearM3 => Sys2Proof.Machine.execFirstClearM3 s
  | .firstClearM4 => Sys2Proof.Machine.execFirstClearM4 s
  | .firstClearM5 => Sys2Proof.Machine.execFirstClearM5 s
  | .firstClearM6 => Sys2Proof.Machine.execFirstClearM6 s
  | .firstClearM7 => Sys2Proof.Machine.execFirstClearM7 s
  | .firstClearM8 => Sys2Proof.Machine.execFirstClearM8 s
  | .firstBad code => Sys2Proof.Machine.execFirstBad code s
  | .clearM2 => Sys2Proof.Machine.execClearM2 s
  | .clearM3 => Sys2Proof.Machine.execClearM3 s
  | .clearM4 => Sys2Proof.Machine.execClearM4 s
  | .clearM5 => Sys2Proof.Machine.execClearM5 s
  | .clearM6 => Sys2Proof.Machine.execClearM6 s
  | .clearM7 => Sys2Proof.Machine.execClearM7 s
  | .clearM8 => Sys2Proof.Machine.execClearM8 s
  | .endM2 => Sys2Proof.Machine.execEndM2 s
  | .endM3 => Sys2Proof.Machine.execEndM3 s
  | .endM4 => Sys2Proof.Machine.execEndM4 s
  | .endM5 => Sys2Proof.Machine.execEndM5 s
  | .endM6 => Sys2Proof.Machine.execEndM6 s
  | .endM7 => Sys2Proof.Machine.execEndM7 s
  | .endM8 => Sys2Proof.Machine.execEndM8 s
  | .litM2Noprev root => Sys2Proof.Machine.execLitM2Noprev root s
  | .litM2 root => Sys2Proof.Machine.execLitM2 root s
  | .litM2Full root => Sys2Proof.Machine.execLitM2Full root s
  | .litM3Noprev root => Sys2Proof.Machine.execLitM3Noprev root s
  | .litM3 root => Sys2Proof.Machine.execLitM3 root s
  | .litM3Full root => Sys2Proof.Machine.execLitM3Full root s
  | .litM4Noprev root => Sys2Proof.Machine.execLitM4Noprev root s
  | .litM4 root => Sys2Proof.Machine.execLitM4 root s
  | .litM4Full root => Sys2Proof.Machine.execLitM4Full root s
  | .litM5Noprev root => Sys2Proof.Machine.execLitM5Noprev root s
  | .litM5 root => Sys2Proof.Machine.execLitM5 root s
  | .litM5Full root => Sys2Proof.Machine.execLitM5Full root s
  | .litM6Noprev root => Sys2Proof.Machine.execLitM6Noprev root s
  | .litM6 root => Sys2Proof.Machine.execLitM6 root s
  | .litM6Full root => Sys2Proof.Machine.execLitM6Full root s
  | .litM7Noprev root => Sys2Proof.Machine.execLitM7Noprev root s
  | .litM7 root => Sys2Proof.Machine.execLitM7 root s
  | .litM7Full root => Sys2Proof.Machine.execLitM7Full root s
  | .litM8Noprev root => Sys2Proof.Machine.execLitM8Noprev root s
  | .litM8 root => Sys2Proof.Machine.execLitM8 root s
  | .litM8Full root => Sys2Proof.Machine.execLitM8Full root s
  | .dictNoprev code => Sys2Proof.Machine.execDictNoprev code s
  | .dict code => Sys2Proof.Machine.execDict code s
  | .dictFull code => Sys2Proof.Machine.execDictFull code s
  | .kwkwk code => Sys2Proof.Machine.execKwkwk code s
  | .kwkwkNoprev code => Sys2Proof.Machine.execKwkwkNoprev code s
  | .beyond code => Sys2Proof.Machine.execBeyond code s

end Sys2Proof.Machine
end

