-- ==== Sys2Proof/Machine/Fetch.lean ====
section
/-! DEFINITION. Which instruction the engine runs next, and placing one for it (spec/41_lzw_decoder.md R136, R150). -/

namespace Sys2Proof.Machine

open Sys2Proof

/-- The engine's next instruction while STATE = BUSY: EOD where fewer than CODE_WIDTH bits remain, else the class of the code
at the cursor (R84, R136). None where MIN_CODE_SIZE is no size START accepts (log 15). -/
def fetchCode (s : State) : Option Instr :=
  if avail s.blk < s.blk.codeWidth.toNat then some .eod
  else
    match codeCtx s.blk with
    | none => none
    | some x => some (decodeCode x (codeAtCursor s))

/-- The table the engine holds after `CLEAR, 0, 0, …` when NEXT_CODE is `next`: the initial table, and [0, 0] for every
dynamic code registered. -/
def zerosTable (root next : Nat) : Table :=
  tabulate fun c => if root + 2 ≤ c ∧ c < next then .seq 0 [0] else initEntry root c

/-- A running decode whose next code is `c` and which decodes it in the state `tableCtx c` (log 2): IN holds the code at its
start, the cursor stands there, MIN_CODE_SIZE is `tableMinCode c`, and the engine stands where `CLEAR, 0, 0, …` left it. -/
def placeCode (c : Nat) (s : State) : State :=
  let m := minCodeNat (tableMinCode c)
  let next := tableNextCode c
  { s with
    blk := { s.blk with
      config := (s.blk.config &&& 0xFFFFFF00#32) ||| BitVec.ofNat 32 m
      inLen := 2
      state := .busy
      errKind := .none
      errDetail := 0
      codeWidth := BitVec.ofNat 4 (min Config.maxCodeWidth (bitLen next))
      nextCode := BitVec.ofNat 13 next
      prev := 0
      prevValid := true
      byteIndex := 0
      bitIndex := 0
      errCode := 0
      phase := .loop
      table := zerosTable (2 ^ m) next }
    input := Memory.write (Memory.write s.input 0 (BitVec.ofNat 8 c)) 1 (BitVec.ofNat 8 (c / 256))
    changed := []
    sinkAccepts := true
    pending := .engine :: s.pending }

/-- A running decode at the end of its data: `placeCode` of the root code 0, with no byte of IN left to read. -/
def placeEnd (s : State) : State :=
  let t := placeCode 0 s
  { t with blk := { t.blk with inLen := 0 } }

/-- A host transaction comes next. -/
def placeTransaction (w : HbusWord) (s : State) : State := { s with pending := .host 32 w :: s.pending }

/-- The encoded form comes next. -/
def placeEncoded (e : Encoded) (s : State) : State :=
  match e with
  | .hbus _ w => placeTransaction w s
  | .code c => placeCode c.toNat s
  | .noCode => placeEnd s

end Sys2Proof.Machine
end

