-- ==== Sys2Proof/Machine/Step.lean ====
section
/-! DEFINITION. One step of the machine: the next agent's move (spec/00_scope.md R10, R11; spec/42_host_interface.md R180). -/

namespace Sys2Proof.Machine

open Sys2Proof

/-- The engine's turn: one code step while STATE = BUSY, nothing otherwise (R135, R214). -/
def engineTurn (s : State) : Host.Outcome State Fault Refusal :=
  if isBusy s.blk then
    match fetchCode s with
    | some i => exec i s
    | none => .refused .minCodeSize
  else .next s

/-- The state with the coming events replaced. -/
def withPending (es : List Event) (s : State) : State := { s with pending := es }

/-- One step: the move of the agent that comes next, the engine's turn where no event is listed (log 1). -/
def step (s : State) : Host.Outcome State Fault Refusal :=
  match s.pending with
  | [] => engineTurn s
  | .engine :: es => engineTurn (withPending es s)
  | .host bits w :: es => exec (decodeHbus (isBusy s.blk) bits w) (withPending es s)
  | .sink accepts :: es => .next { withPending es s with sinkAccepts := accepts }
  | .place a v :: es => .next (placeByte a v (withPending es s))
  | .rst :: es => .next (resetBlock (withPending es s))

/-- The state in which the very next step runs the table's word as `decodeTableWord` reads it (log 2). -/
def State.withFetchWord (s : State) (nbits w : Nat) : State :=
  match tableEncoded nbits w with
  | .ok e => placeEncoded e s
  | .error _ => s

end Sys2Proof.Machine
end

