-- ==== Sys2Proof/Safety.lean ====
section
/-! DEFINITION. What counts as a safe run, and the words the claims are stated in: the invariant of the block and the groups of
instructions that share a rule. -/

namespace Sys2Proof.Machine

open Sys2Proof

/-- The step goes on. -/
def Runs (r : Result) : Prop := ∃ t, r = .next t

/-- The errors of the block: the pairs of ERR_KIND and ERR_DETAIL that R211 lists. -/
def errorPair : ErrKind → BitVec 4 → Bool
  | .unexpectedEndOfData, d => d == 6 || d == 7
  | .protocolError, d => d == 1 || d == 2 || d == 3
  | .corruptedStream, d => d == 4 || d == 5
  | _, _ => false

/-- The code table of a running decode (R162, R163): roots, CLEAR, END, and every dynamic entry below NEXT_CODE the sequence of
an earlier entry with one more index at its end, a root index. -/
structure TableOk (root next : Nat) (t : Table) : Prop where
  roots : ∀ c : Code, c.toNat < root → entryAt t c = .seq (c.setWidth 8) []
  clear : ∀ c : Code, c.toNat = root → entryAt t c = .clear
  endMark : ∀ c : Code, c.toNat = root + 1 → entryAt t c = .endMark
  dynamic : ∀ c : Code, root + 2 ≤ c.toNat → c.toNat < next →
    ∃ (q : Code) (x : Index) (xs : List Index) (y : Index),
      q.toNat < c.toNat ∧ entryAt t q = .seq x xs ∧ entryAt t c = .seq x (xs ++ [y]) ∧ y.toNat < root

/-- A running decode. -/
structure EngineOk (s : State) : Prop where
  /-- R33. -/
  minCode : 2 ≤ minCodeSize s.blk ∧ minCodeSize s.blk ≤ 8
  /-- R161. -/
  next : rootSizeOf s.blk + 2 ≤ s.blk.nextCode.toNat ∧ s.blk.nextCode.toNat ≤ 4096
  /-- R160. -/
  width : s.blk.codeWidth.toNat = min 12 (bitLen s.blk.nextCode.toNat)
  /-- R29. -/
  position : cursor s.blk ≤ 8 * s.blk.inLen.toNat
  /-- R162, R163. -/
  table : TableOk (rootSizeOf s.blk) s.blk.nextCode.toNat s.blk.table
  /-- R162: PREV < NEXT_CODE, and it is a code that has a sequence. -/
  previous : s.blk.prevValid = true →
    s.blk.prev.toNat < s.blk.nextCode.toNat ∧ ∃ x xs, entryAt s.blk.table s.blk.prev = .seq x xs
  /-- R141: with no previous code nothing is registered yet. -/
  noPrevious : s.blk.prevValid = false → s.blk.nextCode.toNat = rootSizeOf s.blk + 2
  /-- R32, R117: in PHASE = FIRST nothing is read or emitted yet. -/
  atFirst : s.blk.phase = .first → s.blk.prevValid = false ∧ cursor s.blk = 0 ∧ s.out = []
  /-- R165, R166: at most 4091 indices for every 3 bits read. -/
  emitted : 3 * s.out.length ≤ 4091 * cursor s.blk
  /-- R167. -/
  indices : ∀ x ∈ s.out, x.toNat < rootSizeOf s.blk

/-- What holds of the block in every STATE. -/
structure BlockOk (s : State) : Prop where
  /-- R22: reserved bits of CONFIG are 0. -/
  reserved : s.blk.config &&& configMask = s.blk.config
  /-- R25, R211: in ERROR the kind and the detail are a pair of the table. -/
  inError : s.blk.state = .error → errorPair s.blk.errKind s.blk.errDetail = true
  /-- R25, R31: elsewhere there is no error. -/
  noError : s.blk.state ≠ .error → s.blk.errKind = .none ∧ s.blk.errDetail = 0 ∧ s.blk.errCode = 0
  /-- R30, R73: OUT_COUNT counts the indices emitted since START. -/
  counted : s.blk.state ≠ .idle → s.blk.outCount.toNat = s.out.length
  /-- R38, R192: in IDLE the engine and result registers are 0. -/
  inIdle : s.blk.state = .idle → clearResults s.blk = s.blk ∧ s.blk.phase = .first

/-- The invariant: memory and the set of changed addresses keep their canonical forms, and in a run without a refusal mark the
block is in order. Of a run that carries the mark nothing is claimed (R181). -/
structure State.Inv (s : State) : Prop where
  memory : Memory.wf s.input
  rising : s.changed.Pairwise (· < ·)
  block : s.refusalMark = false → BlockOk s
  engine : s.refusalMark = false → s.blk.state = .busy → EngineOk s

/-- Everything the sink has accepted, in order (R63, R196). -/
def sinkHolds (s : State) : List Index := s.sinkPast ++ s.out

/-- IN read as one little-endian number, byte `a` first, for `n` bytes (L of R113 with a = 0, n = IN_LEN). -/
def littleEndian (m : Memory) (a : Nat) : Nat → Nat
  | 0 => 0
  | n + 1 => (Memory.read m a).toNat + 256 * littleEndian m (a + 1) n

/-! ## Groups of instructions -/

/-- The host writes that are ignored: START while BUSY (R191), a CTRL write of no command (R193), writes to read-only registers and
unmapped offsets (R187). -/
def ignoredWrite : Instr → Bool
  | .startBusy _ => true
  | .ctrlNop _ => true
  | .wrStatus _ => true
  | .wrCodeWidth _ => true
  | .wrNextCode _ => true
  | .wrPrevCode _ => true
  | .wrByteIndex _ => true
  | .wrBitIndex _ => true
  | .wrOutCountLo _ => true
  | .wrOutCountHi _ => true
  | .wrErrCode _ => true
  | .wrUnmapped30 _ _ => true
  | .wrUnmapped40 _ _ => true
  | .wrUnmapped80 _ _ => true
  | _ => false

/-- The word a read returns exactly in every STATE (R39, R182, R183): CTRL, CONFIG, IN_LEN, STATUS and the unmapped offsets. -/
def exactRead : Instr → Block → Option Word
  | .rdCtrl _ => fun _ => some 0
  | .rdConfig _ => fun b => some (b.config &&& 0x01FF03FF#32)
  | .rdInLen _ => fun b => some b.inLen
  | .rdStatus _ => fun b => some (statusWord b)
  | .rdUnmapped30 _ _ => fun _ => some 0
  | .rdUnmapped40 _ _ => fun _ => some 0
  | .rdUnmapped80 _ _ => fun _ => some 0
  | _ => fun _ => none

/-- The word a read of an engine or result register returns outside BUSY (R39, R182). -/
def resultRead : Instr → Block → Option Word
  | .rdCodeWidth _ => fun b => some (b.codeWidth.setWidth 32)
  | .rdNextCode _ => fun b => some (b.nextCode.setWidth 32)
  | .rdPrevCode _ => fun b => some (prevCodeWord b)
  | .rdByteIndex _ => fun b => some b.byteIndex
  | .rdBitIndex _ => fun b => some (b.bitIndex.setWidth 32)
  | .rdOutCountLo _ => fun b => some (outCountLo b)
  | .rdOutCountHi _ => fun b => some (outCountHi b)
  | .rdErrCode _ => fun b => some (b.errCode.setWidth 32)
  | _ => fun _ => none

/-- The reads of the register window (R182, R183). -/
def isRead : Instr → Bool
  | .rdCtrl _ => true
  | .rdConfig _ => true
  | .rdInLen _ => true
  | .rdStatus _ => true
  | .rdCodeWidth _ => true
  | .rdNextCode _ => true
  | .rdPrevCode _ => true
  | .rdByteIndex _ => true
  | .rdBitIndex _ => true
  | .rdOutCountLo _ => true
  | .rdOutCountHi _ => true
  | .rdErrCode _ => true
  | .rdUnmapped30 _ _ => true
  | .rdUnmapped40 _ _ => true
  | .rdUnmapped80 _ _ => true
  | _ => false

/-- The refused transactions (R181). -/
def isRefused : Instr → Bool
  | .refusedOff0 _ _ => true
  | .refusedOff1 _ => true
  | _ => false

/-- The first codes that are accepted: FIRST (R137) and FIRST_CLEAR at every minimum code size (R138). -/
def firstAccepted : Instr → Bool
  | .first _ => true
  | .firstClearM2 => true
  | .firstClearM3 => true
  | .firstClearM4 => true
  | .firstClearM5 => true
  | .firstClearM6 => true
  | .firstClearM7 => true
  | .firstClearM8 => true
  | _ => false

/-- The CLEAR rows (R139). -/
def isClear : Instr → Bool
  | .clearM2 => true
  | .clearM3 => true
  | .clearM4 => true
  | .clearM5 => true
  | .clearM6 => true
  | .clearM7 => true
  | .clearM8 => true
  | _ => false

/-- The END rows (R140). -/
def isEnd : Instr → Bool
  | .endM2 => true
  | .endM3 => true
  | .endM4 => true
  | .endM5 => true
  | .endM6 => true
  | .endM7 => true
  | .endM8 => true
  | _ => false

/-- The code of a LIT or DICT row with no previous code (R141). -/
def noPrevCode : Instr → Option Code
  | .litM2Noprev root => some (root.setWidth 12)
  | .litM3Noprev root => some (root.setWidth 12)
  | .litM4Noprev root => some (root.setWidth 12)
  | .litM5Noprev root => some (root.setWidth 12)
  | .litM6Noprev root => some (root.setWidth 12)
  | .litM7Noprev root => some (root.setWidth 12)
  | .litM8Noprev root => some (root.setWidth 12)
  | .dictNoprev code => some code
  | _ => none

/-- The code of a LIT or DICT row with a previous code and room in the table (R142). -/
def registerCode : Instr → Option Code
  | .litM2 root => some (root.setWidth 12)
  | .litM3 root => some (root.setWidth 12)
  | .litM4 root => some (root.setWidth 12)
  | .litM5 root => some (root.setWidth 12)
  | .litM6 root => some (root.setWidth 12)
  | .litM7 root => some (root.setWidth 12)
  | .litM8 root => some (root.setWidth 12)
  | .dict code => some code
  | _ => none

/-- The code of a LIT or DICT row with a full table (R143). -/
def fullCode : Instr → Option Code
  | .litM2Full root => some (root.setWidth 12)
  | .litM3Full root => some (root.setWidth 12)
  | .litM4Full root => some (root.setWidth 12)
  | .litM5Full root => some (root.setWidth 12)
  | .litM6Full root => some (root.setWidth 12)
  | .litM7Full root => some (root.setWidth 12)
  | .litM8Full root => some (root.setWidth 12)
  | .dictFull code => some code
  | _ => none

/-- The classes of code (R84). -/
inductive CodeClass
  | eod | first | firstClear | firstBad | clear | endMark | lit | dict | kwkwk | beyond
deriving DecidableEq, Repr

/-- The class a row of format CODE_w belongs to (R84); a host transaction has none. -/
def classOf : Instr → Option CodeClass
  | .eod => some .eod
  | .first _ => some .first
  | .firstClearM2 => some .firstClear
  | .firstClearM3 => some .firstClear
  | .firstClearM4 => some .firstClear
  | .firstClearM5 => some .firstClear
  | .firstClearM6 => some .firstClear
  | .firstClearM7 => some .firstClear
  | .firstClearM8 => some .firstClear
  | .firstBad _ => some .firstBad
  | .clearM2 => some .clear
  | .clearM3 => some .clear
  | .clearM4 => some .clear
  | .clearM5 => some .clear
  | .clearM6 => some .clear
  | .clearM7 => some .clear
  | .clearM8 => some .clear
  | .endM2 => some .endMark
  | .endM3 => some .endMark
  | .endM4 => some .endMark
  | .endM5 => some .endMark
  | .endM6 => some .endMark
  | .endM7 => some .endMark
  | .endM8 => some .endMark
  | .litM2Noprev _ => some .lit
  | .litM2 _ => some .lit
  | .litM2Full _ => some .lit
  | .litM3Noprev _ => some .lit
  | .litM3 _ => some .lit
  | .litM3Full _ => some .lit
  | .litM4Noprev _ => some .lit
  | .litM4 _ => some .lit
  | .litM4Full _ => some .lit
  | .litM5Noprev _ => some .lit
  | .litM5 _ => some .lit
  | .litM5Full _ => some .lit
  | .litM6Noprev _ => some .lit
  | .litM6 _ => some .lit
  | .litM6Full _ => some .lit
  | .litM7Noprev _ => some .lit
  | .litM7 _ => some .lit
  | .litM7Full _ => some .lit
  | .litM8Noprev _ => some .lit
  | .litM8 _ => some .lit
  | .litM8Full _ => some .lit
  | .dictNoprev _ => some .dict
  | .dict _ => some .dict
  | .dictFull _ => some .dict
  | .kwkwk _ => some .kwkwk
  | .kwkwkNoprev _ => some .kwkwk
  | .beyond _ => some .beyond
  | _ => none

/-- The error a class of code raises, and the code it names (R138, R143, R145, R146, R211): FIRST_BAD, the full-table rows,
KWKWK_NOPREV and BEYOND. -/
def codeError (i : Instr) : Option (ErrKind × BitVec 4 × Code) :=
  match i with
  | .firstBad c => some (.protocolError, 1, c)
  | .kwkwkNoprev c => some (.corruptedStream, 5, c)
  | .beyond c => some (.corruptedStream, 4, c)
  | i => (fullCode i).map fun c => (.protocolError, 2, c)

/-- CODE_WIDTH after a registration that finds it at `w` and NEXT_CODE at `next` (R132, R133). -/
def grownWidth (w next : Nat) : Nat := if next + 1 = 2 ^ w ∧ w < 12 then w + 1 else w

/-- The step has read the code at the cursor: where that many bits were left, P is CODE_WIDTH higher (R113, R136). -/
def AdvancesOverCode (s t : State) : Prop :=
  s.blk.codeWidth.toNat ≤ avail s.blk → cursor t.blk = cursor s.blk + s.blk.codeWidth.toNat

/-- What becomes of the next state, a stop staying as it is. -/
def mapNext (f : State → State) : Result → Result
  | .next t => .next (f t)
  | .fault r => .fault r
  | .refused r => .refused r

/-- The same state with other bytes in IN. -/
def withInput (m : Memory) (s : State) : State := { s with input := m }

/-- The same state with another CONFIG. -/
def withConfig (c : Word) (s : State) : State := { s with blk := { s.blk with config := c } }

end Sys2Proof.Machine
end

