-- ==== Sys2Proof/Certificates/Slice0/Obligations.lean ====
section
/-! DEFINITION. The statements for the provers. -/

open Sys2Proof Sys2Proof.Machine

/-! ## Reset and the invariant -/

/-- R38: the value every register has at reset, T being whatever is given, and irq 0; the machine starts there. -/
def Obligations.ResetRegisterValues : Prop :=
  (∀ t : Table, ∃ b, b = Block.reset t ∧ b.config = 0 ∧ b.inLen = 0 ∧ statusWord b = 0 ∧ b.state = .idle ∧ b.errKind = .none ∧
    b.errDetail = 0 ∧ b.codeWidth = 0 ∧ b.nextCode = 0 ∧ b.prev = 0 ∧ b.prevValid = false ∧ b.byteIndex = 0 ∧ b.bitIndex = 0 ∧
    b.outCount = 0 ∧ b.errCode = 0 ∧ b.phase = .first ∧ b.table = t ∧ irq b = false) ∧
  State.reset.blk = Block.reset (Config.drawTable 0)

/-- R240: rst puts every register at its reset value and T at a drawn one, stops a decode in progress, and takes nothing from
the sink. That IN and the rest around the block stay is the model's reading (log 18). -/
def Obligations.ResetStopsTheDecode : Prop :=
  ∀ (s : State) (es : List Event), s.pending = .rst :: es →
    step s = .next { s with
      blk := Block.reset (Config.drawTable s.draws), pending := es, draws := s.draws + 1 }

/-- The invariant holds at reset. -/
def Obligations.InvariantAtReset : Prop := State.reset.Inv

/-- Every step keeps the invariant: canonical memory, R25, R29, R30, R160, R161, R162, R163, R167, R211. -/
def Obligations.StepKeepsInvariant : Prop :=
  ∀ s t : State, s.Inv → step s = .next t → t.Inv

/-- In a run without a refusal mark no step stops: no fault and no refusal is reached from a state in order (R33, R162). -/
def Obligations.StepNeverStops : Prop :=
  ∀ s : State, s.Inv → s.refusalMark = false → Runs (step s)

/-! ## Decoding -/

/-- Decoding the encoded form of a well-formed instruction gives it back, in every state its row's condition admits; NEXT_CODE is in its
range of R161, which StepKeepsInvariant keeps in a running decode. -/
def Obligations.DecodeOfEncode : Prop :=
  ∀ (x : Ctx) (i : Instr), rootSize x.codes.minCode + 2 ≤ x.codes.nextCode → x.codes.nextCode ≤ 4096 →
    WellFormed i → x.admits i = true → decode x (encode i) = i

/-- Every encoded form decodes to a well-formed instruction that the state admits and that encodes to it: the decoder drops no bit
and every row's condition holds where it is chosen. -/
def Obligations.EncodeOfDecode : Prop :=
  ∀ (x : Ctx) (e : Encoded), rootSize x.codes.minCode + 2 ≤ x.codes.nextCode → x.codes.nextCode ≤ 4096 →
    encode (decode x e) = e ∧ WellFormed (decode x e) ∧ x.admits (decode x e) = true

/-- R85: in LOOP every code falls in exactly one class, and which one is decided by its value (R84). -/
def Obligations.LoopClassesPartitionTheCodes : Prop :=
  ∀ (x : CodeCtx) (c : Code), x.phase = .loop → rootSize x.minCode + 2 ≤ x.nextCode →
    (classOf (decodeCode x c) = some .clear ↔ c.toNat = rootSize x.minCode) ∧
    (classOf (decodeCode x c) = some .endMark ↔ c.toNat = rootSize x.minCode + 1) ∧
    (classOf (decodeCode x c) = some .lit ↔ c.toNat < rootSize x.minCode) ∧
    (classOf (decodeCode x c) = some .dict ↔ rootSize x.minCode + 2 ≤ c.toNat ∧ c.toNat < x.nextCode) ∧
    (classOf (decodeCode x c) = some .kwkwk ↔ c.toNat = x.nextCode) ∧
    (classOf (decodeCode x c) = some .beyond ↔ x.nextCode < c.toNat) ∧
    ∃ k ∈ [CodeClass.clear, .endMark, .lit, .dict, .kwkwk, .beyond], classOf (decodeCode x c) = some k

/-- Words written out from 30_encoding.md and 95_test_vectors.md L2.13 decode to the instructions they stand for. -/
def Obligations.SampleWordsDecode : Prop :=
  decodeHbus false 32 0x10000000001#41 = .start 0 ∧
  decodeHbus true 32 0x10000000001#41 = .startBusy 0 ∧
  decodeHbus true 32 0x10000000003#41 = .abort true 0 ∧
  decodeHbus false 32 0x100FFFFFFFC#41 = .ctrlNop 0x3FFFFFFF#30 ∧
  decodeHbus false 32 0x104FFFFFFFF#41 = .wrConfig 0xFFFFFFFF#32 ∧
  decodeHbus false 32 0x00C00000000#41 = .rdStatus 0 ∧
  decodeHbus false 32 0x13000000001#41 = .wrUnmapped30 0x30#8 1 ∧
  decodeHbus false 32 0x0FC00000000#41 = .rdUnmapped40 0xFC#8 0 ∧
  decodeHbus false 32 0x00200000000#41 = .refusedOff1 0x00200000000#41 ∧
  decodeCode ⟨.loop, false, .m2, true, 7⟩ 4#12 = .clearM2 ∧
  decodeCode ⟨.loop, false, .m8, false, 258⟩ 65#12 = .litM8Noprev 65#8 ∧
  decodeCode ⟨.first, true, .m3, false, 10⟩ 9#12 = .firstBad 9#12

/-! ## A step runs the decoded instruction -/

/-- A step whose next event is a host transaction runs the instruction that transaction encodes, with the event taken off. -/
def Obligations.StepRunsTheHostTransaction : Prop :=
  ∀ (s : State) (es : List Event) (bits : Nat) (w : HbusWord) (x : CodeCtx) (i : Instr),
    s.pending = .host bits w :: es → encode i = .hbus bits w → WellFormed i → (Ctx.mk (isBusy s.blk) x).admits i = true →
    step s = exec i (withPending es s)

/-- While STATE = BUSY the engine's turn runs the class of the code at the cursor, or EOD where fewer than CODE_WIDTH bits
remain (R135, R136, R150); the turn is the engine's when its event comes next and when no event is listed. -/
def Obligations.StepRunsTheCodeAtTheCursor : Prop :=
  ∀ (s : State) (es : List Event) (x : CodeCtx),
    s.pending = .engine :: es ∨ (s.pending = [] ∧ es = []) → s.blk.state = .busy → codeCtx s.blk = some x →
    step s = exec (if avail s.blk < s.blk.codeWidth.toNat then .eod else decodeCode x (codeAtCursor s)) (withPending es s)

/-- Outside BUSY the engine performs no step (R135, R242). -/
def Obligations.EngineRestsOutsideBusy : Prop :=
  ∀ (s : State) (es : List Event), s.pending = .engine :: es ∨ (s.pending = [] ∧ es = []) → s.blk.state ≠ .busy →
    step s = .next (withPending es s)

/-- A word of opcode_table.json placed after reset is the instruction the next step runs. That a code's word is decoded in the
state `tableCtx` names is the model's choice (log 2). -/
def Obligations.TableWordRunsAfterReset : Prop :=
  ∀ (nbits w : Nat) (i : Instr), decodeTableWord nbits w = some i →
    step (State.reset.withFetchWord nbits w) = exec i (withPending [] (State.reset.withFetchWord nbits w))

/-! ## The bit reader -/

/-- R113: ReadBits in closed form, over IN as one little-endian number, and the cursor after it; the bytes read are bytes the host has
not changed during the decode (R66). -/
def Obligations.ReadBitsClosedForm : Prop :=
  ∀ (s : State) (n : Nat), cursor s.blk + n ≤ 8 * s.blk.inLen.toNat →
    (∀ a ∈ s.changed, 8 * a + 8 ≤ cursor s.blk ∨ cursor s.blk + n ≤ 8 * a) →
    (readBits n s).1 = littleEndian s.input 0 s.blk.inLen.toNat / 2 ^ cursor s.blk % 2 ^ n ∧
    cursor (readBits n s).2.blk = cursor s.blk + n

/-- R80, R81: bit k of a code is stream bit P + k, and the bits above CODE_WIDTH are 0. -/
def Obligations.CodeBitsAreStreamBits : Prop :=
  ∀ (s : State) (k : Nat), s.blk.codeWidth.toNat ≤ 12 → s.blk.codeWidth.toNat ≤ avail s.blk →
    (∀ a ∈ s.changed, 8 * a + 8 ≤ cursor s.blk ∨ cursor s.blk + s.blk.codeWidth.toNat ≤ 8 * a) →
    (codeAtCursor s).getLsbD k =
      (decide (k < s.blk.codeWidth.toNat) && (Memory.read s.input ((cursor s.blk + k) / 8)).getLsbD ((cursor s.blk + k) % 8))

/-- R61: a byte of IN reads as the host wrote it, without side effect, unless the host has changed it during the decode;
R66: a changed byte reads as the next draw. -/
def Obligations.MemReadIsExactOrADraw : Prop :=
  ∀ (s : State) (a : Nat),
    (a ∉ s.changed → memRead a s = (Memory.read s.input a, s)) ∧
    (a ∈ s.changed → memRead a s = ((Config.draw s.draws).setWidth 8, { s with draws := s.draws + 1 }))

/-- R66: storing another value at an address below IN_LEN while STATE = BUSY makes that address, and no other, a changed one; a store
outside BUSY, at or above IN_LEN, or of the value the byte has makes none, and START begins with none. What a read of a changed byte
returns is MemReadIsExactOrADraw, that it stays changed is ChangedBytesStayChanged. That storing the value a byte already has is no
change is the model's reading (log 10). -/
def Obligations.ChangingInputWhileBusyMakesDraws : Prop :=
  (∀ (s : State) (es : List Event) (a : Word) (v : Byte),
    s.pending = .place a v :: es → s.blk.state = .busy → a.toNat < s.blk.inLen.toNat → Memory.read s.input a.toNat ≠ v →
    ∃ t, step s = .next t ∧ t = { s with pending := es, input := t.input, changed := t.changed } ∧
      ∀ a' : Nat, a' ∈ t.changed ↔ a' = a.toNat ∨ a' ∈ s.changed) ∧
  (∀ (s : State) (es : List Event) (a : Word) (v : Byte), s.pending = .place a v :: es →
    s.blk.state ≠ .busy ∨ s.blk.inLen.toNat ≤ a.toNat ∨ Memory.read s.input a.toNat = v →
    ∃ t, step s = .next t ∧ t.changed = s.changed) ∧
  ∀ (s : State) (hi : BitVec 30), ∃ t, exec (.start hi) s = .next t ∧ t.changed = []

/-- What the host stores in IN is what a read of IN finds, and no other byte changes (R60, R244); the block, OUT, the sink and the rest
stay. -/
def Obligations.StoredInputByteReadsBack : Prop :=
  ∀ (s : State) (es : List Event) (a : Word) (v : Byte), Memory.wf s.input → s.pending = .place a v :: es →
    ∃ t, step s = .next t ∧ t = { s with pending := es, input := t.input, changed := t.changed } ∧
      Memory.read t.input a.toNat = v ∧ ∀ a' : Nat, a' ≠ a.toNat → Memory.read t.input a' = Memory.read s.input a'

/-- R116: the engine reads no byte at or above IN_LEN, so such bytes have no influence on its turn. -/
def Obligations.BytesBeyondInLenDoNotMatter : Prop :=
  ∀ (s : State) (a : Nat) (v : Byte), s.blk.inLen.toNat ≤ a →
    engineTurn (withInput (Memory.write s.input a v) s) = mapNext (withInput (Memory.write s.input a v)) (engineTurn s)

/-- The engine reads only MIN_CODE_SIZE and FIRST_CHECK of CONFIG: CT_SIZE and IRQ_EN have no influence on its turn (R22). -/
def Obligations.CtSizeAndIrqEnDoNotMatter : Prop :=
  ∀ (s : State) (c : Word), c.extractLsb' 0 9 = s.blk.config.extractLsb' 0 9 →
    engineTurn (withConfig c s) = mapNext (withConfig c) (engineTurn s)

/-! ## Commands -/

/-- START with an accepted MIN_CODE_SIZE runs INIT (R130, R190): every register, T (R35), OUT and the sink. -/
def Obligations.StartBeginsADecode : Prop :=
  ∀ (s : State) (hi : BitVec 30), 2 ≤ minCodeSize s.blk → minCodeSize s.blk ≤ 8 →
    ∃ t, exec (.start hi) s = .next t ∧
      t = { s with
        out := [], sinkPast := s.sinkPast ++ s.out, changed := []
        blk := { s.blk with
          state := .busy, errKind := .none, errDetail := 0, errCode := 0, outCount := 0, prev := 0, prevValid := false
          byteIndex := 0, bitIndex := 0, phase := .first
          nextCode := t.blk.nextCode, codeWidth := t.blk.codeWidth, table := t.blk.table } } ∧
      t.blk.nextCode.toNat = 2 ^ minCodeSize s.blk + 2 ∧ t.blk.codeWidth.toNat = minCodeSize s.blk + 1 ∧
      ∀ c : Code, entryAt t.blk.table c =
        if c.toNat < 2 ^ minCodeSize s.blk then .seq (c.setWidth 8) []
        else if c.toNat = 2 ^ minCodeSize s.blk then .clear
        else if c.toNat = 2 ^ minCodeSize s.blk + 1 then .endMark else .absent

/-- R217: START with a MIN_CODE_SIZE outside 2 to 8 enters ERROR, ProtocolError detail 3, with the engine and result registers at 0
and T, PHASE, IN and CONFIG as they were. -/
def Obligations.StartRejectsABadMinCodeSize : Prop :=
  ∀ (s : State) (hi : BitVec 30), minCodeSize s.blk < 2 ∨ 8 < minCodeSize s.blk →
    exec (.start hi) s = .next { s with
      out := [], sinkPast := s.sinkPast ++ s.out, changed := []
      blk := { s.blk with
        state := .error, errKind := .protocolError, errDetail := 3, errCode := 0, outCount := 0, codeWidth := 0, nextCode := 0
        prev := 0, prevValid := false, byteIndex := 0, bitIndex := 0 } }

/-- R192: ABORT in any state returns to IDLE with the engine and result registers at 0; CONFIG and IN_LEN keep their values, T becomes
any value, irq goes low, and what the sink has accepted stays. -/
def Obligations.AbortReturnsToIdle : Prop :=
  ∀ (s : State) (start : Bool) (hi : BitVec 30),
    ∃ t, exec (.abort start hi) s = .next t ∧ irq t.blk = false ∧
      t = { s with
        draws := s.draws + 1
        blk := { s.blk with
          state := .idle, errKind := .none, errDetail := 0, errCode := 0, codeWidth := 0, nextCode := 0, prev := 0, prevValid := false
          byteIndex := 0, bitIndex := 0, outCount := 0, phase := .first, table := Config.drawTable s.draws } }

/-- R187, R191, R193: START while BUSY, a CTRL write of no command and every write to a read-only register or an unmapped offset
change nothing. -/
def Obligations.IgnoredWritesChangeNothing : Prop :=
  ∀ (s : State) (i : Instr), ignoredWrite i = true → exec i s = .next s

/-- R185: a write to CONFIG stores the bits that exist unless STATE = BUSY, irq following at once; nothing else changes. -/
def Obligations.WriteConfigStoresOutsideBusy : Prop :=
  ∀ (s : State) (d : Word),
    ∃ t, exec (.wrConfig d) s = .next t ∧
      t = { s with blk := { s.blk with config := if s.blk.state = .busy then s.blk.config else d &&& 0x01FF03FF#32 } } ∧
      (s.blk.state ≠ .busy →
        minCodeSize t.blk = (d.extractLsb' 0 8).toNat ∧ firstCheck t.blk = d.getLsbD 8 ∧ ctSize t.blk = d.extractLsb' 16 9 ∧
        irq t.blk = (d.getLsbD 9 && (s.blk.state == .done || s.blk.state == .error)))

/-- R186: a write to IN_LEN stores the whole word unless STATE = BUSY; nothing else changes. -/
def Obligations.WriteInLenStoresOutsideBusy : Prop :=
  ∀ (s : State) (d : Word),
    exec (.wrInLen d) s = .next { s with blk := { s.blk with inLen := if s.blk.state = .busy then s.blk.inLen else d } }

/-! ## Reads -/

/-- R182, R183, R39: outside BUSY every read returns the register's word, an unmapped offset 0; CTRL, CONFIG, IN_LEN, STATUS and the
unmapped offsets do so in every state, and while STATE = BUSY a read of an engine or result register returns a draw. -/
def Obligations.ReadsReturnTheRegister : Prop :=
  ∀ (s : State) (i : Instr),
    (∀ v : Word, exactRead i s.blk = some v ∨ (s.blk.state ≠ .busy ∧ resultRead i s.blk = some v) →
      exec i s = .next { s with rdata := v }) ∧
    (s.blk.state = .busy → (resultRead i s.blk).isSome = true →
      exec i s = .next { s with rdata := (Config.draw s.draws).setWidth 32, draws := s.draws + 1 })

/-- R184: no read has a side effect: the block, irq, IN, OUT and the sink stay. -/
def Obligations.ReadsHaveNoSideEffect : Prop :=
  ∀ (s t : State) (i : Instr), isRead i = true → exec i s = .next t →
    t.blk = s.blk ∧ irq t.blk = irq s.blk ∧ t = { s with rdata := t.rdata, draws := t.draws }

/-- R25, R28, R210: the fields of STATUS and PREV_CODE as a read returns them, with the numbers of STATE and of the kinds of error, and
reserved bits 0. -/
def Obligations.StatusAndPrevCodeLayout : Prop :=
  ∀ b : Block,
    (((statusWord b).extractLsb' 0 2 = 0#2 ↔ b.state = .idle) ∧ ((statusWord b).extractLsb' 0 2 = 1#2 ↔ b.state = .busy) ∧
      ((statusWord b).extractLsb' 0 2 = 2#2 ↔ b.state = .done) ∧ ((statusWord b).extractLsb' 0 2 = 3#2 ↔ b.state = .error)) ∧
    (((statusWord b).extractLsb' 8 3 = 0#3 ↔ b.errKind = .none) ∧
      ((statusWord b).extractLsb' 8 3 = 1#3 ↔ b.errKind = .invalidSignature) ∧
      ((statusWord b).extractLsb' 8 3 = 2#3 ↔ b.errKind = .unsupportedVersion) ∧
      ((statusWord b).extractLsb' 8 3 = 3#3 ↔ b.errKind = .unexpectedEndOfData) ∧
      ((statusWord b).extractLsb' 8 3 = 4#3 ↔ b.errKind = .unknownBlockIntroducer) ∧
      ((statusWord b).extractLsb' 8 3 = 5#3 ↔ b.errKind = .protocolError) ∧
      ((statusWord b).extractLsb' 8 3 = 6#3 ↔ b.errKind = .corruptedStream) ∧
      ((statusWord b).extractLsb' 8 3 = 7#3 ↔ b.errKind = .validationMismatch)) ∧
    ((statusWord b).extractLsb' 16 4 = b.errDetail ∧ (statusWord b).extractLsb' 2 6 = 0 ∧
      (statusWord b).extractLsb' 11 5 = 0 ∧ (statusWord b).extractLsb' 20 12 = 0) ∧
    ((prevCodeWord b).extractLsb' 0 12 = b.prev ∧ (prevCodeWord b).extractLsb' 12 19 = 0 ∧
      (prevCodeWord b).getLsbD 31 = b.prevValid)

/-! ## Refused transactions -/

/-- R181: a refused transaction sets the refusal mark; IN, OUT and what the sink holds stay. What the registers hold then is not
specified (log 11). -/
def Obligations.RefusedTransactionSetsTheMark : Prop :=
  ∀ (s : State) (i : Instr), isRefused i = true →
    ∃ t, exec i s = .next t ∧ t.refusalMark = true ∧
      t = { s with blk := t.blk, rdata := t.rdata, draws := t.draws, refusalMark := true }

/-- R181: the refusal mark persists for the run, and only a transaction that is not 32 bits wide or not aligned sets it. -/
def Obligations.RefusalMarkPersists : Prop :=
  ∀ s t : State, step s = .next t →
    (s.refusalMark = true → t.refusalMark = true) ∧
    (s.refusalMark = false → t.refusalMark = true →
      ∃ bits w es, s.pending = .host bits w :: es ∧ (bits ≠ 32 ∨ (hbusOff w).extractLsb' 0 2 ≠ 0))

/-! ## Code steps -/

/-- R136: EOD raises UnexpectedEndOfData, detail 6 where no bit remains and 7 otherwise, with no bit consumed and nothing else changed. -/
def Obligations.EndOfDataRaises : Prop :=
  ∀ s : State,
    exec .eod s = .next { s with
      blk := { s.blk with
        state := .error, errKind := .unexpectedEndOfData, errCode := 0
        errDetail := if 8 * s.blk.inLen.toNat ≤ 8 * s.blk.byteIndex.toNat + s.blk.bitIndex.toNat then 6 else 7 } }

/-- R137, R138: an accepted first code is consumed and PHASE becomes LOOP, and nothing else changes; a first code that R138 does not
accept raises ProtocolError with detail 1 and its own code, the cursor and the rest staying. -/
def Obligations.AcceptedFirstCodeEntersLoop : Prop :=
  (∀ (s : State) (i : Instr), firstAccepted i = true →
    ∃ t, exec i s = .next t ∧ AdvancesOverCode s t ∧
      t = { s with
        blk := { s.blk with phase := .loop, byteIndex := t.blk.byteIndex, bitIndex := t.blk.bitIndex }, draws := t.draws }) ∧
  ∀ (s : State) (c : Code),
    ∃ t, exec (.firstBad c) s = .next t ∧
      t = { s with
        blk := { s.blk with state := .error, errKind := .protocolError, errDetail := 1, errCode := c }, draws := t.draws }

/-- R139: CLEAR sets T to its initial content, NEXT_CODE to ROOT_SIZE + 2, CODE_WIDTH to m + 1 and PREV_VALID to 0; PREV, OUT,
OUT_COUNT and the rest stay. -/
def Obligations.ClearResetsTheTable : Prop :=
  ∀ (s : State) (i : Instr), isClear i = true → 2 ≤ minCodeSize s.blk → minCodeSize s.blk ≤ 8 →
    ∃ t, exec i s = .next t ∧ AdvancesOverCode s t ∧
      t = { s with
        blk := { s.blk with
          table := t.blk.table, nextCode := t.blk.nextCode, codeWidth := t.blk.codeWidth, prevValid := false
          byteIndex := t.blk.byteIndex, bitIndex := t.blk.bitIndex }
        draws := t.draws } ∧
      t.blk.nextCode.toNat = 2 ^ minCodeSize s.blk + 2 ∧ t.blk.codeWidth.toNat = minCodeSize s.blk + 1 ∧
      ∀ c : Code, entryAt t.blk.table c =
        if c.toNat < 2 ^ minCodeSize s.blk then .seq (c.setWidth 8) []
        else if c.toNat = 2 ^ minCodeSize s.blk then .clear
        else if c.toNat = 2 ^ minCodeSize s.blk + 1 then .endMark else .absent

/-- R140: END ends the decode in DONE, with the cursor just past it and nothing else changed. -/
def Obligations.EndCompletesTheDecode : Prop :=
  ∀ (s : State) (i : Instr), isEnd i = true →
    ∃ t, exec i s = .next t ∧ AdvancesOverCode s t ∧
      t = { s with
        blk := { s.blk with state := .done, byteIndex := t.blk.byteIndex, bitIndex := t.blk.bitIndex }, draws := t.draws }

/-- R141: a present code with no previous code emits its sequence and becomes the previous code; nothing is registered. -/
def Obligations.PresentCodeWithoutPreviousEmits : Prop :=
  ∀ (s : State) (i : Instr) (c : Code) (x : Index) (xs : List Index),
    noPrevCode i = some c → s.sinkAccepts = true → entryAt s.blk.table c = .seq x xs →
    ∃ t, exec i s = .next t ∧ AdvancesOverCode s t ∧
      t = { s with
        out := s.out ++ x :: xs
        blk := { s.blk with
          outCount := s.blk.outCount + BitVec.ofNat 64 (xs.length + 1), prev := c, prevValid := true
          byteIndex := t.blk.byteIndex, bitIndex := t.blk.bitIndex }
        draws := t.draws }

/-- R142, R132, R133: a present code with a previous code and room in the table emits its sequence and registers the previous
sequence with this one's first index at NEXT_CODE, which rises by one; CODE_WIDTH grows at a power of two below 12. -/
def Obligations.PresentCodeRegisters : Prop :=
  ∀ (s : State) (i : Instr) (c : Code) (x p : Index) (xs ps : List Index),
    registerCode i = some c → s.sinkAccepts = true → s.blk.nextCode.toNat < 4096 →
    entryAt s.blk.table c = .seq x xs → entryAt s.blk.table s.blk.prev = .seq p ps →
    ∃ t, exec i s = .next t ∧ AdvancesOverCode s t ∧
      t = { s with
        out := s.out ++ x :: xs
        blk := { s.blk with
          outCount := s.blk.outCount + BitVec.ofNat 64 (xs.length + 1), prev := c, prevValid := true
          table := t.blk.table, nextCode := t.blk.nextCode, codeWidth := t.blk.codeWidth
          byteIndex := t.blk.byteIndex, bitIndex := t.blk.bitIndex }
        draws := t.draws } ∧
      (∀ c' : Code, entryAt t.blk.table c' =
        if c'.toNat = s.blk.nextCode.toNat then .seq p (ps ++ [x]) else entryAt s.blk.table c') ∧
      t.blk.nextCode.toNat = s.blk.nextCode.toNat + 1 ∧
      t.blk.codeWidth.toNat = grownWidth s.blk.codeWidth.toNat s.blk.nextCode.toNat

/-- R144: a KwKwK code with a previous code emits and registers, at NEXT_CODE, the previous sequence with its own first index. -/
def Obligations.KwkwkEmitsAndRegisters : Prop :=
  ∀ (s : State) (c : Code) (p : Index) (ps : List Index),
    s.sinkAccepts = true → c.toNat = s.blk.nextCode.toNat → entryAt s.blk.table s.blk.prev = .seq p ps →
    ∃ t, exec (.kwkwk c) s = .next t ∧ AdvancesOverCode s t ∧
      t = { s with
        out := s.out ++ p :: (ps ++ [p])
        blk := { s.blk with
          outCount := s.blk.outCount + BitVec.ofNat 64 (ps.length + 2), prev := c, prevValid := true
          table := t.blk.table, nextCode := t.blk.nextCode, codeWidth := t.blk.codeWidth
          byteIndex := t.blk.byteIndex, bitIndex := t.blk.bitIndex }
        draws := t.draws } ∧
      (∀ c' : Code, entryAt t.blk.table c' =
        if c'.toNat = c.toNat then .seq p (ps ++ [p]) else entryAt s.blk.table c') ∧
      t.blk.nextCode.toNat = c.toNat + 1 ∧
      t.blk.codeWidth.toNat = grownWidth s.blk.codeWidth.toNat s.blk.nextCode.toNat

/-- R138, R143, R145, R146: the classes that raise an error enter ERROR with the kind, the detail and the code of R211; the cursor, T,
the engine registers, OUT and OUT_COUNT stay as they were before the step. The first codes R138 accepts raise none: STATE stays, PHASE
becomes LOOP and the code is consumed. -/
def Obligations.CodeErrorsEnterError : Prop :=
  (∀ (s : State) (i : Instr) (k : ErrKind) (d : BitVec 4) (c : Code), codeError i = some (k, d, c) →
    ∃ t, exec i s = .next t ∧
      t = { s with blk := { s.blk with state := .error, errKind := k, errDetail := d, errCode := c }, draws := t.draws }) ∧
  ∀ (s : State) (i : Instr), firstAccepted i = true →
    ∃ t, exec i s = .next t ∧ t.blk.state = s.blk.state ∧ t.blk.phase = .loop ∧ AdvancesOverCode s t

/-- R196: while the sink does not accept, a step that would emit has not begun: nothing changes. With no previous code the step reads
no T[PREV] (R141), which after a CLEAR may be no sequence (R28, R139). -/
def Obligations.SinkHoldsTheStep : Prop :=
  ∀ s : State, s.sinkAccepts = false →
    (∀ (i : Instr) (c : Code) (x : Index) (xs : List Index), noPrevCode i = some c → entryAt s.blk.table c = .seq x xs →
      exec i s = .next s) ∧
    ∀ (p : Index) (ps : List Index), entryAt s.blk.table s.blk.prev = .seq p ps →
      (∀ (i : Instr) (c : Code) (x : Index) (xs : List Index), registerCode i = some c → entryAt s.blk.table c = .seq x xs →
        exec i s = .next s) ∧
      ∀ c : Code, exec (.kwkwk c) s = .next s

/-! ## Rules about the whole machine -/

/-- R213: when the engine's turn ends in ERROR, every register but STATUS and ERR_CODE, T, the cursor, OUT and what the sink holds are
as before the step. -/
def Obligations.ErrorsArePrecise : Prop :=
  ∀ s t : State, s.blk.state = .busy → engineTurn s = .next t → t.blk.state = .error →
    t = { s with
      blk := { s.blk with state := .error, errKind := t.blk.errKind, errDetail := t.blk.errDetail, errCode := t.blk.errCode }
      draws := t.draws } ∧
    errorPair t.blk.errKind t.blk.errDetail = true

/-- R214: in ERROR and in DONE no register changes except through a host write or rst, and a step leaves that STATE only by START,
ABORT or rst; a run that carries a refusal mark is excepted (R181). -/
def Obligations.ErrorAndDoneAbsorb : Prop :=
  ∀ s t : State, s.blk.state = .error ∨ s.blk.state = .done → step s = .next t → t.refusalMark = false →
    ((∀ es, s.pending ≠ .rst :: es) → (∀ bits w es, s.pending = .host bits w :: es → hbusWe w = false) → t.blk = s.blk) ∧
    (t.blk.state ≠ s.blk.state →
      (∃ es, s.pending = .rst :: es) ∨
      ∃ w es, s.pending = .host 32 w :: es ∧ hbusWe w = true ∧ hbusOff w = 0 ∧ (hbusData w).extractLsb' 0 2 ≠ 0)

/-- R221: DONE is reached only through an END code. -/
def Obligations.DoneOnlyThroughEnd : Prop :=
  ∀ s t : State, s.blk.state ≠ .done → step s = .next t → t.refusalMark = false → t.blk.state = .done →
    s.blk.state = .busy ∧ s.blk.phase = .loop ∧ s.blk.codeWidth.toNat ≤ avail s.blk ∧
    (codeAtCursor s).toNat = rootSizeOf s.blk + 1

/-- R63: an emitted index is never retracted or rewritten: every step only adds to what the sink holds. -/
def Obligations.EmittedIndicesStay : Prop :=
  ∀ s t : State, step s = .next t → sinkHolds s <+: sinkHolds t

/-- R164: in a running decode a dynamic entry is at most as long as its distance from ROOT_SIZE, and one step emits at most
4095 - ROOT_SIZE indices; R167: each of them is below ROOT_SIZE. -/
def Obligations.EmissionIsBounded : Prop :=
  ∀ s : State, s.Inv → s.refusalMark = false → s.blk.state = .busy →
    (∀ (c : Code) (x : Index) (xs : List Index), rootSizeOf s.blk + 2 ≤ c.toNat → c.toNat < s.blk.nextCode.toNat →
      entryAt s.blk.table c = .seq x xs → xs.length + 1 ≤ c.toNat - rootSizeOf s.blk) ∧
    ∀ t : State, engineTurn s = .next t →
      ∃ xs, t.out = s.out ++ xs ∧ xs.length ≤ 4095 - rootSizeOf s.blk ∧ ∀ x ∈ xs, x.toNat < rootSizeOf s.blk

/-- R165: an engine step that neither raises nor ends the decode consumes CODE_WIDTH ≥ 3 bits, if the sink accepts. -/
def Obligations.EveryCodeStepAdvances : Prop :=
  ∀ s t : State, s.Inv → s.refusalMark = false → s.blk.state = .busy → s.sinkAccepts = true → engineTurn s = .next t →
    t.blk.state = .busy → cursor t.blk = cursor s.blk + s.blk.codeWidth.toNat ∧ 3 ≤ s.blk.codeWidth.toNat

/-- R253: a decode whose sink accepts and which no other agent disturbs reaches DONE or ERROR within floor(bits left / 3) + 1 steps. -/
def Obligations.DecodeTerminates : Prop :=
  ∀ s : State, s.Inv → s.refusalMark = false → s.blk.state = .busy → s.sinkAccepts = true → s.pending = [] →
    ∃ k ≤ avail s.blk / 3 + 1, ∃ t : State, Sys2Proof.core.run k s = .next t ∧ (t.blk.state = .done ∨ t.blk.state = .error)

/-- R166: OUT_COUNT is the number of indices emitted and never wraps: it stays below (floor(8*IN_LEN / 3) + 1) * 4091 < 2^47. -/
def Obligations.OutCountNeverWraps : Prop :=
  ∀ s t : State, s.Inv → s.refusalMark = false → s.blk.state = .busy → engineTurn s = .next t →
    t.blk.outCount.toNat = t.out.length ∧ t.out.length < (8 * s.blk.inLen.toNat / 3 + 1) * 4091 ∧
    (8 * s.blk.inLen.toNat / 3 + 1) * 4091 < 2 ^ 47

/-- While STATE = BUSY no step but rst and a refused transaction changes CONFIG or IN_LEN, so the root size and the bound of IN are
constant within a decode (R33, R185, R186). -/
def Obligations.ConfigurationIsFixedWhileBusy : Prop :=
  ∀ s t : State, s.blk.state = .busy → step s = .next t → t.refusalMark = false → (∀ es, s.pending ≠ .rst :: es) →
    t.blk.config = s.blk.config ∧ t.blk.inLen = s.blk.inLen

/-- R168: in LOOP with a full table there is a previous code, CODE_WIDTH is 12, and every code is CLEAR, END or a present code, which
raises ProtocolError with detail 2 (R143). -/
def Obligations.FullTableClasses : Prop :=
  ∀ (s : State) (x : CodeCtx) (c : Code), s.Inv → s.refusalMark = false → s.blk.state = .busy → s.blk.phase = .loop →
    s.blk.nextCode.toNat = 4096 → codeCtx s.blk = some x →
    s.blk.prevValid = true ∧ s.blk.codeWidth = 12 ∧
    (isClear (decodeCode x c) = true ∨ isEnd (decodeCode x c) = true ∨
      (fullCode (decodeCode x c) = some c ∧ exec (decodeCode x c) s = .next (raise .protocolError 2 c s)))

/-- R141, R145: in LOOP with no previous code a present code is a root whose sequence is itself, a DICT code does not occur, and a KwKwK
code is ROOT_SIZE + 2. -/
def Obligations.OnlyRootsWithoutPrevious : Prop :=
  ∀ (s : State) (x : CodeCtx) (c : Code), s.Inv → s.refusalMark = false → s.blk.state = .busy → s.blk.phase = .loop →
    s.blk.prevValid = false → codeCtx s.blk = some x →
    classOf (decodeCode x c) ≠ some .dict ∧
    (∀ c', noPrevCode (decodeCode x c) = some c' → c' = c ∧ entryAt s.blk.table c = .seq (c.setWidth 8) []) ∧
    (classOf (decodeCode x c) = some .kwkwk → c.toNat = rootSizeOf s.blk + 2)

/-- R169: the block after a CLEAR is the block after a START, given outside BUSY with the same CONFIG and IN_LEN, and an accepted first
code, but for the cursor, OUT_COUNT and the stale PREV (which R28 keeps and R169 does not mention, log 21). -/
def Obligations.ClearEqualsAFreshDecode : Prop :=
  ∀ (s a u b c : State) (hi : BitVec 30) (i j : Instr),
    s.Inv → s.refusalMark = false → s.blk.state = .busy → s.blk.phase = .loop → isClear i = true → exec i s = .next a →
    u.blk.state ≠ .busy → u.blk.config = s.blk.config → u.blk.inLen = s.blk.inLen →
    exec (.start hi) u = .next b → firstAccepted j = true → exec j b = .next c →
    a.blk = { c.blk with
      byteIndex := a.blk.byteIndex, bitIndex := a.blk.bitIndex, outCount := s.blk.outCount, prev := s.blk.prev }

/-- R219: irq is IRQ_EN and the end of a decode, and once high it goes low only by START, ABORT, a CONFIG write or rst; no read
acknowledges it (a refused transaction is excepted, R181). -/
def Obligations.IrqIsALevel : Prop :=
  (∀ b : Block, irq b = true ↔ b.config.getLsbD 9 = true ∧ (b.state = .done ∨ b.state = .error)) ∧
  ∀ s t : State, irq s.blk = true → step s = .next t → t.refusalMark = false → irq t.blk = false →
    (∃ es, s.pending = .rst :: es) ∨
    ∃ w es, s.pending = .host 32 w :: es ∧ hbusWe w = true ∧
      ((hbusOff w = 0 ∧ (hbusData w).extractLsb' 0 2 ≠ 0) ∨ (hbusOff w = 4 ∧ (hbusData w).getLsbD 9 = false))

/-! ## The agents around the block, and what stays over a step -/

/-- R66 ("every later MemRead of that byte in the decode"): a byte of IN the host has changed stays a changed one over every step but
START, whoever moves. -/
def Obligations.ChangedBytesStayChanged : Prop :=
  ∀ s t : State, step s = .next t →
    (∀ w es, s.pending = .host 32 w :: es → hbusWe w = true → hbusOff w = 0 → (hbusData w).extractLsb' 0 2 = 1 →
      s.blk.state = .busy) →
    ∀ a ∈ s.changed, a ∈ t.changed

/-- R195, R196: what the sink answers from now on is what its event says, and nothing else changes. That the answer is a flag the events
set is the model's choice (log 3). -/
def Obligations.SinkAnswerSetsTheFlag : Prop :=
  ∀ (s : State) (es : List Event) (accepts : Bool), s.pending = .sink accepts :: es →
    step s = .next { s with pending := es, sinkAccepts := accepts }

/-- R30, R182: outside BUSY OUT_COUNT_LO reads as bits 31 to 0 of OUT_COUNT and OUT_COUNT_HI as bits 63 to 32; the two reads together
give OUT_COUNT. -/
def Obligations.OutCountReadsInHalves : Prop :=
  ∀ (s : State) (d d' : Word), s.blk.state ≠ .busy →
    ∃ t u, exec (.rdOutCountLo d) s = .next t ∧ exec (.rdOutCountHi d') t = .next u ∧
      t = { s with rdata := s.blk.outCount.extractLsb' 0 32 } ∧ u = { s with rdata := s.blk.outCount.extractLsb' 32 32 } ∧
      u.rdata ++ t.rdata = s.blk.outCount

/-- R84, R85: in FIRST every code falls in exactly one class, decided by FIRST_CHECK and, where it is 1, by whether the code is
CLEAR_CODE. -/
def Obligations.FirstClassesPartitionTheCodes : Prop :=
  ∀ (x : CodeCtx) (c : Code), x.phase = .first →
    (classOf (decodeCode x c) = some .first ↔ x.firstCheck = false) ∧
    (classOf (decodeCode x c) = some .firstClear ↔ x.firstCheck = true ∧ c.toNat = rootSize x.minCode) ∧
    (classOf (decodeCode x c) = some .firstBad ↔ x.firstCheck = true ∧ c.toNat ≠ rootSize x.minCode) ∧
    ∃ k ∈ [CodeClass.first, .firstClear, .firstBad], classOf (decodeCode x c) = some k
end

