-- ==== Sys2Proof/Laws/State.lean ====
section
/-! SUPPORT. One lemma per field of State and per update the machine makes: what the update leaves, and what it writes. -/

namespace Sys2Proof.Machine

open Sys2Proof

variable (s : State) (es : List Event) (v : Word) (k : ErrKind) (d : BitVec 4) (c : Code) (x : Index)

@[simp] theorem withPending_blk : (withPending es s).blk = s.blk := rfl
@[simp] theorem withPending_input : (withPending es s).input = s.input := rfl
@[simp] theorem withPending_changed : (withPending es s).changed = s.changed := rfl
@[simp] theorem withPending_out : (withPending es s).out = s.out := rfl
@[simp] theorem withPending_sinkPast : (withPending es s).sinkPast = s.sinkPast := rfl
@[simp] theorem withPending_sinkAccepts : (withPending es s).sinkAccepts = s.sinkAccepts := rfl
@[simp] theorem withPending_rdata : (withPending es s).rdata = s.rdata := rfl
@[simp] theorem withPending_refusalMark : (withPending es s).refusalMark = s.refusalMark := rfl
@[simp] theorem withPending_pending : (withPending es s).pending = es := rfl
@[simp] theorem withPending_draws : (withPending es s).draws = s.draws := rfl

@[simp] theorem emit_blk : (emit x s).blk = { s.blk with outCount := s.blk.outCount + 1 } := rfl
@[simp] theorem emit_input : (emit x s).input = s.input := rfl
@[simp] theorem emit_changed : (emit x s).changed = s.changed := rfl
@[simp] theorem emit_out : (emit x s).out = s.out ++ [x] := rfl
@[simp] theorem emit_sinkPast : (emit x s).sinkPast = s.sinkPast := rfl
@[simp] theorem emit_sinkAccepts : (emit x s).sinkAccepts = s.sinkAccepts := rfl
@[simp] theorem emit_rdata : (emit x s).rdata = s.rdata := rfl
@[simp] theorem emit_refusalMark : (emit x s).refusalMark = s.refusalMark := rfl
@[simp] theorem emit_pending : (emit x s).pending = s.pending := rfl
@[simp] theorem emit_draws : (emit x s).draws = s.draws := rfl

@[simp] theorem raise_blk : (raise k d c s).blk = errorEntry k d c s.blk := rfl
@[simp] theorem raise_input : (raise k d c s).input = s.input := rfl
@[simp] theorem raise_changed : (raise k d c s).changed = s.changed := rfl
@[simp] theorem raise_out : (raise k d c s).out = s.out := rfl
@[simp] theorem raise_sinkPast : (raise k d c s).sinkPast = s.sinkPast := rfl
@[simp] theorem raise_sinkAccepts : (raise k d c s).sinkAccepts = s.sinkAccepts := rfl
@[simp] theorem raise_rdata : (raise k d c s).rdata = s.rdata := rfl
@[simp] theorem raise_refusalMark : (raise k d c s).refusalMark = s.refusalMark := rfl
@[simp] theorem raise_pending : (raise k d c s).pending = s.pending := rfl
@[simp] theorem raise_draws : (raise k d c s).draws = (codeRead s).draws := rfl

theorem raiseNoCode_eq : raiseNoCode k d s = { s with blk := errorEntry k d 0 s.blk } := rfl

@[simp] theorem init_blk : (init s).blk = initBlock s.blk := rfl
@[simp] theorem init_input : (init s).input = s.input := rfl
@[simp] theorem init_changed : (init s).changed = [] := rfl
@[simp] theorem init_out : (init s).out = [] := rfl
@[simp] theorem init_sinkPast : (init s).sinkPast = s.sinkPast ++ s.out := rfl
@[simp] theorem init_sinkAccepts : (init s).sinkAccepts = s.sinkAccepts := rfl
@[simp] theorem init_rdata : (init s).rdata = s.rdata := rfl
@[simp] theorem init_refusalMark : (init s).refusalMark = s.refusalMark := rfl
@[simp] theorem init_pending : (init s).pending = s.pending := rfl
@[simp] theorem init_draws : (init s).draws = s.draws := rfl

@[simp] theorem readExact_blk : (readExact v s).blk = s.blk := rfl
@[simp] theorem readExact_rdata : (readExact v s).rdata = v := rfl
@[simp] theorem readExact_out : (readExact v s).out = s.out := rfl

/-- What a read can do (R184): it returns a word and may consume a draw; nothing else changes. -/
theorem readResult_eq :
    readResult v s = { s with rdata := v } ∨
      (isBusy s.blk = true ∧
        readResult v s = { s with rdata := (Config.draw s.draws).setWidth 32, draws := s.draws + 1 }) := by
  unfold readResult
  split
  · exact .inr ⟨‹_›, rfl⟩
  · exact .inl rfl

@[simp] theorem placeByte_blk (a : Word) (b : Byte) : (placeByte a b s).blk = s.blk := rfl
@[simp] theorem placeByte_input (a : Word) (b : Byte) :
    (placeByte a b s).input = Memory.write s.input a.toNat b := rfl
@[simp] theorem placeByte_out (a : Word) (b : Byte) : (placeByte a b s).out = s.out := rfl
@[simp] theorem placeByte_sinkPast (a : Word) (b : Byte) : (placeByte a b s).sinkPast = s.sinkPast := rfl
@[simp] theorem placeByte_refusalMark (a : Word) (b : Byte) :
    (placeByte a b s).refusalMark = s.refusalMark := rfl

/-! The fields ErrorEntry writes, and only those (R212). -/

variable (b : Block)

@[simp] theorem errorEntry_state : (errorEntry k d c b).state = .error := rfl
@[simp] theorem errorEntry_errKind : (errorEntry k d c b).errKind = k := rfl
@[simp] theorem errorEntry_errDetail : (errorEntry k d c b).errDetail = d := rfl
@[simp] theorem errorEntry_errCode : (errorEntry k d c b).errCode = c := rfl
@[simp] theorem errorEntry_config : (errorEntry k d c b).config = b.config := rfl
@[simp] theorem errorEntry_inLen : (errorEntry k d c b).inLen = b.inLen := rfl
@[simp] theorem errorEntry_codeWidth : (errorEntry k d c b).codeWidth = b.codeWidth := rfl
@[simp] theorem errorEntry_nextCode : (errorEntry k d c b).nextCode = b.nextCode := rfl
@[simp] theorem errorEntry_prev : (errorEntry k d c b).prev = b.prev := rfl
@[simp] theorem errorEntry_prevValid : (errorEntry k d c b).prevValid = b.prevValid := rfl
@[simp] theorem errorEntry_byteIndex : (errorEntry k d c b).byteIndex = b.byteIndex := rfl
@[simp] theorem errorEntry_bitIndex : (errorEntry k d c b).bitIndex = b.bitIndex := rfl
@[simp] theorem errorEntry_outCount : (errorEntry k d c b).outCount = b.outCount := rfl
@[simp] theorem errorEntry_phase : (errorEntry k d c b).phase = b.phase := rfl
@[simp] theorem errorEntry_table : (errorEntry k d c b).table = b.table := rfl

end Sys2Proof.Machine
end

