-- ==== Sys2Proof/Laws/BitReader.lean ====
section
/-! SUPPORT. The bit reader: what reading bits changes, and where the cursor goes (R110 to R117). -/

namespace Sys2Proof.Machine

open Sys2Proof

/-- `t` is `s` but for the cursor and the count of draws. -/
def SameButCursor (s t : State) : Prop :=
  t = { s with
    blk := { s.blk with byteIndex := t.blk.byteIndex, bitIndex := t.blk.bitIndex }
    draws := t.draws }

theorem SameButCursor.refl (s : State) : SameButCursor s s := rfl

theorem SameButCursor.trans {s t u : State} (h : SameButCursor s t) (h' : SameButCursor t u) : SameButCursor s u := by
  unfold SameButCursor at *
  rw [h] at h'
  exact h'

theorem memRead_frame (a : Nat) (s : State) : SameButCursor s (memRead a s).2 := by
  unfold memRead SameButCursor
  split <;> rfl

theorem memRead_blk (a : Nat) (s : State) : (memRead a s).2.blk = s.blk := by
  unfold memRead
  split <;> rfl

/-- A byte the host has not changed reads exactly, and no draw is taken (R61). -/
theorem memRead_exact {a : Nat} {s : State} (h : a ∉ s.changed) : memRead a s = (Memory.read s.input a, s) := by
  simp [memRead, h]

theorem nextBit_frame (b : Block) :
    nextBit b = { b with byteIndex := (nextBit b).byteIndex, bitIndex := (nextBit b).bitIndex } := by
  unfold nextBit
  split <;> rfl

theorem readBit_frame (s : State) : SameButCursor s (readBit s).2 := by
  refine (memRead_frame s.blk.byteIndex.toNat s).trans ?_
  unfold SameButCursor readBit
  simp only
  rw [nextBit_frame]

/-- Reading bits changes the cursor and the count of draws only. -/
theorem readBits_frame (n : Nat) (s : State) : SameButCursor s (readBits n s).2 := by
  induction n generalizing s with
  | zero => exact .refl s
  | succ n ih => exact (readBit_frame s).trans (ih _)

/-- One bit on, the cursor position is one higher, as long as BYTE_INDEX has room. -/
theorem nextBit_cursor {b : Block} (h : cursor b + 1 < 2 ^ 35) : cursor (nextBit b) = cursor b + 1 := by
  unfold nextBit cursor at *
  have := b.bitIndex.isLt
  split
  · next h7 =>
    rw [h7] at h ⊢
    simp only [BitVec.ofNat_eq_ofNat, BitVec.toNat_add, BitVec.toNat_ofNat] at h ⊢
    omega
  · next h7 =>
    have : b.bitIndex.toNat ≠ 7 := fun h => h7 (BitVec.eq_of_toNat_eq (by simpa using h))
    simp only [BitVec.ofNat_eq_ofNat, BitVec.toNat_add, BitVec.toNat_ofNat]
    omega

theorem readBit_cursor {s : State} (h : cursor s.blk + 1 < 2 ^ 35) : cursor (readBit s).2.blk = cursor s.blk + 1 := by
  show cursor (nextBit (memRead _ s).2.blk) = _
  rw [memRead_blk, nextBit_cursor h]

/-- P advances by the number of bits read (R113). -/
theorem readBits_cursor {n : Nat} {s : State} (h : cursor s.blk + n < 2 ^ 35) :
    cursor (readBits n s).2.blk = cursor s.blk + n := by
  induction n generalizing s with
  | zero => rfl
  | succ n ih =>
    have hb : cursor (readBit s).2.blk = cursor s.blk + 1 := readBit_cursor (by omega)
    show cursor (readBits n (readBit s).2).2.blk = _
    rw [ih (by omega), hb]
    omega

/-- The value read has no more bits than were read. -/
theorem readBits_lt (n : Nat) (s : State) : (readBits n s).1 < 2 ^ n := by
  induction n generalizing s with
  | zero => simp [readBits]
  | succ n ih =>
    have h := ih (readBit s).2
    have hb := Bool.toNat_le (readBit s).1
    simp only [readBits, pow_succ]
    omega

/-- The state once the code is read differs in the cursor and the draws only. -/
theorem codeRead_frame (s : State) : SameButCursor s (codeRead s) := readBits_frame _ s

theorem codeRead_cursor {s : State} (h : cursor s.blk + s.blk.codeWidth.toNat < 2 ^ 35) :
    cursor (codeRead s).blk = cursor s.blk + s.blk.codeWidth.toNat := readBits_cursor h

/-- The code at the cursor fits CODE_WIDTH (R80). -/
theorem codeAtCursor_lt {s : State} (h : s.blk.codeWidth.toNat ≤ 12) :
    (codeAtCursor s).toNat < 2 ^ s.blk.codeWidth.toNat := by
  have h1 := readBits_lt s.blk.codeWidth.toNat s
  have h2 : 2 ^ s.blk.codeWidth.toNat ≤ 2 ^ 12 := Nat.pow_le_pow_right (by decide) h
  rw [codeAtCursor, BitVec.toNat_ofNat, Nat.mod_eq_of_lt (by omega)]
  exact h1

section
variable (s : State)

@[simp] theorem codeRead_input : (codeRead s).input = s.input := by rw [codeRead_frame s]
@[simp] theorem codeRead_changed : (codeRead s).changed = s.changed := by rw [codeRead_frame s]
@[simp] theorem codeRead_out : (codeRead s).out = s.out := by rw [codeRead_frame s]
@[simp] theorem codeRead_sinkPast : (codeRead s).sinkPast = s.sinkPast := by rw [codeRead_frame s]
@[simp] theorem codeRead_sinkAccepts : (codeRead s).sinkAccepts = s.sinkAccepts := by rw [codeRead_frame s]
@[simp] theorem codeRead_rdata : (codeRead s).rdata = s.rdata := by rw [codeRead_frame s]
@[simp] theorem codeRead_refusalMark : (codeRead s).refusalMark = s.refusalMark := by rw [codeRead_frame s]
@[simp] theorem codeRead_pending : (codeRead s).pending = s.pending := by rw [codeRead_frame s]
@[simp] theorem codeRead_config : (codeRead s).blk.config = s.blk.config := by rw [codeRead_frame s]
@[simp] theorem codeRead_inLen : (codeRead s).blk.inLen = s.blk.inLen := by rw [codeRead_frame s]
@[simp] theorem codeRead_state : (codeRead s).blk.state = s.blk.state := by rw [codeRead_frame s]
@[simp] theorem codeRead_errKind : (codeRead s).blk.errKind = s.blk.errKind := by rw [codeRead_frame s]
@[simp] theorem codeRead_errDetail : (codeRead s).blk.errDetail = s.blk.errDetail := by rw [codeRead_frame s]
@[simp] theorem codeRead_codeWidth : (codeRead s).blk.codeWidth = s.blk.codeWidth := by rw [codeRead_frame s]
@[simp] theorem codeRead_nextCode : (codeRead s).blk.nextCode = s.blk.nextCode := by rw [codeRead_frame s]
@[simp] theorem codeRead_prev : (codeRead s).blk.prev = s.blk.prev := by rw [codeRead_frame s]
@[simp] theorem codeRead_prevValid : (codeRead s).blk.prevValid = s.blk.prevValid := by rw [codeRead_frame s]
@[simp] theorem codeRead_outCount : (codeRead s).blk.outCount = s.blk.outCount := by rw [codeRead_frame s]
@[simp] theorem codeRead_errCode : (codeRead s).blk.errCode = s.blk.errCode := by rw [codeRead_frame s]
@[simp] theorem codeRead_phase : (codeRead s).blk.phase = s.blk.phase := by rw [codeRead_frame s]
@[simp] theorem codeRead_table : (codeRead s).blk.table = s.blk.table := by rw [codeRead_frame s]

end

/-! What comes next in the queue has no part in reading. -/

theorem memRead_withPending (a : Nat) (s : State) (es) : memRead a (withPending es s) = ((memRead a s).1, withPending es (memRead a s).2) := by
  by_cases h : a ∈ s.changed
  · simp [memRead, h]; rfl
  · simp [memRead, h]
theorem readBit_withPending (s : State) (es) : readBit (withPending es s) = ((readBit s).1, withPending es (readBit s).2) := by
  simp only [readBit, withPending_blk, memRead_withPending]; rfl
theorem readBits_withPending (n : Nat) (s : State) (es) : readBits n (withPending es s) = ((readBits n s).1, withPending es (readBits n s).2) := by
  induction n generalizing s with
  | zero => rfl
  | succ n ih => simp only [readBits, readBit_withPending, ih]

/-- The stream bit at position p (R113). -/
def streamBit (m : Memory) (p : Nat) : Bool := (Memory.read m (p / 8)).getLsbD (p % 8)

/-- The bits ReadBits returns are the stream bits at the cursor, where the host has changed none of their bytes (R112, R113). -/
theorem readBits_testBit (n : Nat) (s : State) (h : cursor s.blk + n < 2 ^ 35)
    (hc : ∀ a ∈ s.changed, 8 * a + 8 ≤ cursor s.blk ∨ cursor s.blk + n ≤ 8 * a) :
    ∀ k, (readBits n s).1.testBit k = (decide (k < n) && streamBit s.input (cursor s.blk + k)) := by
  induction n generalizing s with
  | zero => intro k; simp [readBits]
  | succ n ih =>
    have hcur : cursor (readBit s).2.blk = cursor s.blk + 1 := readBit_cursor (by omega)
    have hfr := readBit_frame s
    have hch : (readBit s).2.changed = s.changed := by rw [hfr]
    have hin : (readBit s).2.input = s.input := by rw [hfr]
    have := ih (readBit s).2 (by omega) (by
      intro a ha; rw [hch] at ha; rw [hcur]; rcases hc a ha with h | h <;> omega)
    intro k
    have hb : (readBit s).1 = streamBit s.input (cursor s.blk) := by
      have hbi := s.blk.bitIndex.isLt
      have hn : s.blk.byteIndex.toNat ∉ s.changed := by
        intro hm
        have := hc _ hm
        simp only [cursor] at this
        omega
      simp only [readBit, memRead_exact hn, streamBit, cursor]
      congr 2 <;> omega
    simp only [readBits]
    rcases k with _ | k
    · rw [hb]; cases streamBit s.input (cursor s.blk) <;> simp [Nat.testBit_zero, Nat.add_mul_mod_self_left]
    · have e : ((readBit s).1.toNat + 2 * (readBits n (readBit s).2).1).testBit (k + 1) = (readBits n (readBit s).2).1.testBit k := by
        rw [Nat.testBit_succ]; congr 1; cases (readBit s).1 <;> simp <;> omega
      rw [e, this k, hin, hcur]
      congr 2
      · simp
      · omega

/-- The bits of IN read as one number. -/
theorem littleEndian_testBit (m : Memory) (a n k : Nat) :
    (littleEndian m a n).testBit k = (decide (k < 8 * n) && (Memory.read m (a + k / 8)).getLsbD (k % 8)) := by
  induction n generalizing a k with
  | zero => simp [littleEndian]
  | succ n ih =>
    have : littleEndian m a (n + 1) = 2 ^ 8 * littleEndian m (a + 1) n + (Memory.read m a).toNat := by simp [littleEndian]; omega
    rw [this, Nat.testBit_two_pow_mul_add _ (Memory.read m a).isLt]
    split
    · next h =>
      have : k < 8 * (n + 1) := by omega
      simp [this, BitVec.testBit_toNat, Nat.div_eq_of_lt h, Nat.mod_eq_of_lt h]
    · next h =>
      rw [ih]
      congr 2
      · simp; omega
      · congr 1; omega
      · omega

end Sys2Proof.Machine
end

