-- ==== Sys2Proof/Laws/Engine.lean ====
section
/-! SUPPORT. Emission, the code table and registration: what each leaves (R131 to R133, R148). -/

namespace Sys2Proof.Machine

open Sys2Proof

/-- Emitting a sequence appends it to OUT and adds its length to OUT_COUNT; nothing else changes (R148). -/
theorem emitAll_eq (xs : List Index) (s : State) :
    emitAll xs s = { s with
      out := s.out ++ xs
      blk := { s.blk with outCount := s.blk.outCount + BitVec.ofNat 64 xs.length } } := by
  induction xs generalizing s with
  | nil => simp [emitAll]
  | cons x xs ih =>
    rw [emitAll, ih]
    simp only [emit, List.length_cons, BitVec.ofNat_add, List.append_assoc, List.singleton_append]
    rw [BitVec.add_comm (BitVec.ofNat 64 xs.length), BitVec.add_assoc]
    rfl

theorem lastEntries_getElem {f : Nat → Entry} {n i : Nat} (hn : n ≤ 4096) (hi : i < (lastEntries f n).length) :
    (lastEntries f n)[i] = f (4096 - n + i) := by
  induction n generalizing i with
  | zero => exact absurd hi (Nat.not_lt_zero i)
  | succ n ih =>
    cases i with
    | zero => exact congrArg f (by omega)
    | succ i =>
      have hi' : i < (lastEntries f n).length := by simpa [lastEntries] using hi
      refine (ih (by omega) hi').trans (congrArg f ?_)
      omega

/-- Entry c of a table given by its entries. -/
theorem entryAt_tabulate (f : Nat → Entry) (c : Code) : entryAt (tabulate f) c = f c.toNat := by
  have hi : c.toNat < (lastEntries f 4096).length := by rw [lastEntries_length]; exact c.isLt
  rw [entryAt, tabulate, Vector.getElem_mk, List.getElem_toArray, lastEntries_getElem (Nat.le_refl _) hi]
  exact congrArg f (by omega)

/-- The initial table (R35). -/
theorem entryAt_initTable (root : Nat) (c : Code) : entryAt (initTable root) c = initEntry root c.toNat :=
  entryAt_tabulate _ c

theorem entryAt_initTable_root {root : Nat} {c : Code} (h : c.toNat < root) :
    entryAt (initTable root) c = .seq (c.setWidth 8) [] := by
  rw [entryAt_initTable, initEntry, if_pos h]
  congr 1

theorem entryAt_initTable_clear {root : Nat} {c : Code} (h : c.toNat = root) : entryAt (initTable root) c = .clear := by
  rw [entryAt_initTable, initEntry, if_neg (by omega), if_pos h]

theorem entryAt_initTable_endMark {root : Nat} {c : Code} (h : c.toNat = root + 1) :
    entryAt (initTable root) c = .endMark := by
  rw [entryAt_initTable, initEntry, if_neg (by omega), if_neg (by omega), if_pos h]

/-- T after an entry is set. -/
theorem entryAt_setEntry (t : Table) (n : Nat) (e : Entry) (c : Code) :
    entryAt (setEntry t n e) c = if c.toNat = n then e else entryAt t c := by
  unfold setEntry entryAt
  split
  · rw [Vector.getElem_set]
    simp only [eq_comm]
  · next h => rw [if_neg]; rintro rfl; exact h c.isLt

/-- Grow changes CODE_WIDTH only. -/
theorem grow_eq (b : Block) : grow b = { b with codeWidth := (grow b).codeWidth } := by
  unfold grow
  split <;> rfl

section
variable (x : Index) (xs : List Index) (b : Block)

/-- What a registration writes: T[NEXT_CODE], NEXT_CODE and perhaps CODE_WIDTH (R132, R172). -/
theorem register_eq :
    register x xs b = { b with
      table := setEntry b.table b.nextCode.toNat (.seq x xs)
      nextCode := b.nextCode + 1
      codeWidth := (register x xs b).codeWidth } := by
  unfold register
  rw [grow_eq]

@[simp] theorem register_nextCode : (register x xs b).nextCode = b.nextCode + 1 := by rw [register_eq]
@[simp] theorem register_config : (register x xs b).config = b.config := by rw [register_eq]
@[simp] theorem register_inLen : (register x xs b).inLen = b.inLen := by rw [register_eq]
@[simp] theorem register_state : (register x xs b).state = b.state := by rw [register_eq]
@[simp] theorem register_errKind : (register x xs b).errKind = b.errKind := by rw [register_eq]
@[simp] theorem register_errDetail : (register x xs b).errDetail = b.errDetail := by rw [register_eq]
@[simp] theorem register_errCode : (register x xs b).errCode = b.errCode := by rw [register_eq]
@[simp] theorem register_byteIndex : (register x xs b).byteIndex = b.byteIndex := by rw [register_eq]
@[simp] theorem register_bitIndex : (register x xs b).bitIndex = b.bitIndex := by rw [register_eq]
@[simp] theorem register_outCount : (register x xs b).outCount = b.outCount := by rw [register_eq]
@[simp] theorem register_phase : (register x xs b).phase = b.phase := by rw [register_eq]

/-- T after a registration: the new entry at NEXT_CODE, every other entry as before. -/
theorem entryAt_register (c : Code) :
    entryAt (register x xs b).table c = if c.toNat = b.nextCode.toNat then .seq x xs else entryAt b.table c := by
  rw [register_eq]
  exact entryAt_setEntry _ _ _ c

end

/-- n has at most k bits exactly if n < 2^k. -/
theorem bitLen_le_iff {n k : Nat} : bitLen n ≤ k ↔ n < 2 ^ k := by
  unfold bitLen
  split
  · next h => subst h; simp
  · next h => rw [Nat.add_one_le_iff, Nat.log2_lt h]

/-- Grow keeps CODE_WIDTH = min(12, bitlen(NEXT_CODE)) when NEXT_CODE has just risen by one (R160). -/
theorem grow_width {w next : Nat} (hw : w = min 12 (bitLen next)) (h4 : 4 ≤ next) :
    (if next + 1 = 2 ^ w ∧ w < 12 then w + 1 else w) = min 12 (bitLen (next + 1)) := by
  have hle : ∀ k, bitLen (next + 1) ≤ k ↔ next + 1 < 2 ^ k := fun k => bitLen_le_iff
  have hl := fun k => @bitLen_le_iff next k
  rcases Nat.lt_or_ge (bitLen next) 12 with h | h
  · have hw' : w = bitLen next := by omega
    have hself : next < 2 ^ w := (hl w).1 (by omega)
    split
    · next hc =>
      have h1 : ¬ bitLen (next + 1) ≤ w := by rw [hle]; omega
      have h2 : bitLen (next + 1) ≤ w + 1 := by rw [hle, pow_succ]; omega
      omega
    · next hc =>
      have h1 : bitLen (next + 1) ≤ w := by rw [hle]; omega
      have h0 : ¬ bitLen next ≤ 0 := by rw [hl]; omega
      have h2 : ¬ bitLen next ≤ w - 1 := by omega
      have h3 : ¬ next < 2 ^ (w - 1) := fun hn => h2 ((hl _).2 hn)
      have h5 : ¬ bitLen (next + 1) ≤ w - 1 := by rw [hle]; omega
      omega
  · have hw' : w = 12 := by omega
    have h1 : ¬ next < 2 ^ 11 := fun hn => by have := (hl 11).2 hn; omega
    have h2 : ¬ bitLen (next + 1) ≤ 11 := by rw [hle]; omega
    have : bitLen (next + 1) ≥ 12 := by omega
    simp [hw', this]

/-- CODE_WIDTH after a registration (R133, R160). -/
theorem register_codeWidth {x : Index} {xs : List Index} {b : Block}
    (hw : b.codeWidth.toNat = min 12 (bitLen b.nextCode.toNat)) (h4 : 4 ≤ b.nextCode.toNat) (hn : b.nextCode.toNat < 4096) :
    (register x xs b).codeWidth.toNat = min 12 (bitLen (b.nextCode.toNat + 1)) := by
  have hnext : (b.nextCode + 1).toNat = b.nextCode.toNat + 1 := by
    simp only [BitVec.ofNat_eq_ofNat, BitVec.toNat_add, BitVec.toNat_ofNat]; omega
  rw [← grow_width hw h4]
  unfold register grow
  simp only [hnext]
  split
  · next h =>
    obtain ⟨h1, h2⟩ := h
    have h2' : b.codeWidth.toNat < 12 := h2
    simp only [BitVec.ofNat_eq_ofNat, BitVec.toNat_add, BitVec.toNat_ofNat]
    omega
  · next h =>
    have h' : ¬(b.nextCode.toNat + 1 = 2 ^ b.codeWidth.toNat ∧ b.codeWidth.toNat < 12) := h
    simp only

end Sys2Proof.Machine
end

