-- ==== Sys2Proof/Laws/Memory.lean ====
section
/-! SUPPORT. IN as a memory: a read after a write, and the canonical forms that every operation keeps. -/

namespace Sys2Proof.Machine

open Sys2Proof

/-- A canonical memory holds nothing at an address below all it lists. -/
theorem Memory.read_eq_unlisted {m : Memory} {a : Nat} (h : ∀ c ∈ m, c.1 ≠ a) :
    Memory.read m a = unlistedByte := by
  induction m with
  | nil => rfl
  | cons c m ih =>
    obtain ⟨k, v⟩ := c
    have hk : k ≠ a := h (k, v) (by simp)
    simp only [Memory.read, if_neg hk]
    exact ih fun c hc => h c (by simp [hc])

/-- A read after a write to the same address gives the byte written. -/
theorem Memory.read_write_same {m : Memory} (hm : Memory.wf m) (a : Nat) (b : Byte) :
    Memory.read (Memory.write m a b) a = b := by
  induction m with
  | nil => by_cases hb : b = unlistedByte <;> simp [Memory.write, Memory.read, hb]
  | cons c m ih =>
    obtain ⟨k, v⟩ := c
    obtain ⟨hs, hz⟩ := hm
    rw [List.pairwise_cons] at hs
    have hrest : Memory.wf m := ⟨hs.2, fun c hc => hz c (by simp [hc])⟩
    simp only [Memory.write]
    split
    · next hk => simp only [Memory.read, if_neg (Nat.ne_of_lt hk), ih hrest]
    · split
      · next hk =>
        subst hk
        split
        · next hb => rw [hb]; exact Memory.read_eq_unlisted fun c hc => Nat.ne_of_gt (hs.1 c hc)
        · simp [Memory.read]
      · next h1 h2 =>
        have hlt : a < k := by omega
        split
        · next hb =>
          rw [hb]
          refine Memory.read_eq_unlisted fun c hc => ?_
          rcases List.mem_cons.1 hc with rfl | hc
          · exact h2
          · have := hs.1 c hc; simp only at this; omega
        · simp [Memory.read]

/-- A write leaves every other address alone. -/
theorem Memory.read_write_other {m : Memory} (a a' : Nat) (b : Byte) (h : a' ≠ a) :
    Memory.read (Memory.write m a b) a' = Memory.read m a' := by
  induction m with
  | nil => by_cases hb : b = unlistedByte <;> simp [Memory.write, Memory.read, hb, h.symm]
  | cons c m ih =>
    obtain ⟨k, v⟩ := c
    simp only [Memory.write]
    split
    · simp only [Memory.read, ih]
    · split
      · next hk => subst hk; split <;> simp [Memory.read, h.symm]
      · split <;> simp [Memory.read, h.symm]

/-- What a write leaves listed: what was listed, and the address written. -/
theorem Memory.mem_write {m : Memory} {a : Nat} {b : Byte} {c : Host.Cell} (h : c ∈ Memory.write m a b) :
    c ∈ m ∨ (c = (a, b) ∧ b ≠ unlistedByte) := by
  induction m with
  | nil =>
    simp only [Memory.write] at h
    split at h
    · simp at h
    · next hb => exact .inr ⟨by simpa using h, hb⟩
  | cons d m ih =>
    obtain ⟨k, v⟩ := d
    simp only [Memory.write] at h
    split at h
    · rcases List.mem_cons.1 h with rfl | h
      · simp
      · rcases ih h with h | h
        · exact .inl (by simp [h])
        · exact .inr h
    · split at h
      · split at h
        · exact .inl (by simp [h])
        · next hb =>
          rcases List.mem_cons.1 h with rfl | h
          · exact .inr ⟨rfl, hb⟩
          · exact .inl (by simp [h])
      · split at h
        · exact .inl h
        · next hb =>
          rcases List.mem_cons.1 h with rfl | h
          · exact .inr ⟨rfl, hb⟩
          · exact .inl h

/-- A write keeps the canonical form. -/
theorem Memory.write_wf {m : Memory} (hm : Memory.wf m) (a : Nat) (b : Byte) : Memory.wf (Memory.write m a b) := by
  refine ⟨?_, fun c hc => ?_⟩
  · induction m with
    | nil => by_cases hb : b = unlistedByte <;> simp [Memory.write, hb]
    | cons d m ih =>
      obtain ⟨k, v⟩ := d
      obtain ⟨hs, hz⟩ := hm
      have hs' := List.pairwise_cons.1 hs
      have hrest : Memory.wf m := ⟨hs'.2, fun c hc => hz c (by simp [hc])⟩
      simp only [Memory.write]
      split
      · next hk =>
        refine List.pairwise_cons.2 ⟨fun c hc => ?_, ih hrest⟩
        rcases Memory.mem_write hc with hc | ⟨rfl, -⟩
        · exact hs'.1 c hc
        · exact hk
      · split
        · next hk =>
          subst hk
          split
          · exact hs'.2
          · exact List.pairwise_cons.2 ⟨hs'.1, hs'.2⟩
        · next h1 h2 =>
          split
          · exact hs
          · refine List.pairwise_cons.2 ⟨fun c hc => ?_, hs⟩
            rcases List.mem_cons.1 hc with rfl | hc
            · simp only; omega
            · have := hs'.1 c hc
              simp only at this ⊢; omega
  · rcases Memory.mem_write hc with hc | ⟨rfl, hb⟩
    · exact hm.2 c hc
    · exact hb

/-- The memory of the reset state is in canonical form. -/
theorem Memory.reset_wf : Memory.wf State.reset.input := ⟨List.Pairwise.nil, by simp [State.reset]⟩

/-- The addresses an insertion lists. -/
theorem mem_insertAddress {l : List Nat} {a x : Nat} : x ∈ insertAddress l a ↔ x = a ∨ x ∈ l := by
  induction l with
  | nil => simp [insertAddress]
  | cons k l ih =>
    simp only [insertAddress]
    split
    · simp only [List.mem_cons, ih]; tauto
    · split
      · next hk => subst hk; simp
      · simp

/-- An insertion keeps the addresses rising. -/
theorem insertAddress_rising {l : List Nat} (h : l.Pairwise (· < ·)) (a : Nat) :
    (insertAddress l a).Pairwise (· < ·) := by
  induction l with
  | nil => simp [insertAddress]
  | cons k l ih =>
    have h' := List.pairwise_cons.1 h
    simp only [insertAddress]
    split
    · next hk =>
      refine List.pairwise_cons.2 ⟨fun x hx => ?_, ih h'.2⟩
      rcases mem_insertAddress.1 hx with rfl | hx
      · exact hk
      · exact h'.1 x hx
    · split
      · exact h
      · next h1 h2 =>
        refine List.pairwise_cons.2 ⟨fun x hx => ?_, h⟩
        rcases List.mem_cons.1 hx with rfl | hx
        · omega
        · have := h'.1 x hx; omega

/-- Storing a byte of IN keeps memory canonical and the changed addresses rising. -/
theorem placeByte_canonical {s : State} (hm : Memory.wf s.input) (hc : s.changed.Pairwise (· < ·)) (a : Word) (b : Byte) :
    Memory.wf (placeByte a b s).input ∧ (placeByte a b s).changed.Pairwise (· < ·) := by
  refine ⟨Memory.write_wf hm _ _, ?_⟩
  simp only [placeByte]
  split
  · exact insertAddress_rising hc _
  · exact hc

end Sys2Proof.Machine
end

