-- ==== Sys2Proof/Laws/Step.lean ====
section
/-! SUPPORT. Everything one step can do, said once: the engine's turn by the class of its code, a host transaction by its
effect, and the shared outcomes of the meanings that emit. -/

namespace Sys2Proof.Machine

open Sys2Proof

/-! ## The agents' moves -/

section
variable {s : State} {es : List Event}

theorem step_nil (h : s.pending = []) : step s = engineTurn s := by simp only [step, h]
theorem step_engine (h : s.pending = .engine :: es) : step s = engineTurn (withPending es s) := by simp only [step, h]
theorem step_host {bits : Nat} {w : HbusWord} (h : s.pending = .host bits w :: es) :
    step s = exec (decodeHbus (isBusy s.blk) bits w) (withPending es s) := by simp only [step, h]
theorem step_sink {a : Bool} (h : s.pending = .sink a :: es) :
    step s = .next { withPending es s with sinkAccepts := a } := by simp only [step, h]
theorem step_place {a : Word} {v : Byte} (h : s.pending = .place a v :: es) :
    step s = .next (placeByte a v (withPending es s)) := by simp only [step, h]
theorem step_rst (h : s.pending = .rst :: es) : step s = .next (resetBlock (withPending es s)) := by simp only [step, h]

end

/-! ## The meanings by class -/

/-- A root code given by its low m bits is the code itself. -/
theorem setWidth_setWidth_of_lt {m : Nat} {c : Code} (h : c.toNat < 2 ^ m) : (c.setWidth m).setWidth 12 = c := by
  apply BitVec.eq_of_toNat_eq
  simp only [BitVec.toNat_setWidth]
  rw [Nat.mod_eq_of_lt h, Nat.mod_eq_of_lt c.isLt]

theorem exec_firstClearRow (m : MinCode) (s : State) : exec (firstClearRow m) s = .next (acceptFirst s) := by
  cases m <;> rfl
theorem exec_clearRow (m : MinCode) (s : State) : exec (clearRow m) s = .next (clearTable s) := by
  cases m <;> rfl
theorem exec_endRow (m : MinCode) (s : State) : exec (endRow m) s = .next (endDecode s) := by
  cases m <;> rfl
theorem exec_litNoprevRow {m : MinCode} {c : Code} (h : c.toNat < rootSize m) (s : State) :
    exec (litNoprevRow c m) s = presentNoPrev c s := by
  cases m <;> exact congrArg (presentNoPrev · s) (setWidth_setWidth_of_lt h)
theorem exec_litRow {m : MinCode} {c : Code} (h : c.toNat < rootSize m) (s : State) :
    exec (litRow c m) s = presentRegister c s := by
  cases m <;> exact congrArg (presentRegister · s) (setWidth_setWidth_of_lt h)
theorem exec_litFullRow {m : MinCode} {c : Code} (h : c.toNat < rootSize m) (s : State) :
    exec (litFullRow c m) s = presentFull c s := by
  cases m <;> exact congrArg (presentFull · s) (setWidth_setWidth_of_lt h)

/-- The operation of a code's class (R150), with the rows of one rule together. -/
def classStep (x : CodeCtx) (c : Code) (s : State) : Result :=
  match x.phase with
  | .first =>
    if x.firstCheck = true ∧ c.toNat ≠ rootSize x.minCode then .next (raise .protocolError 1 c s)
    else .next (acceptFirst s)
  | .loop =>
    if c.toNat = rootSize x.minCode then .next (clearTable s)
    else if c.toNat = rootSize x.minCode + 1 then .next (endDecode s)
    else if c.toNat < rootSize x.minCode ∨ c.toNat < x.nextCode then
      if x.prevValid = false then presentNoPrev c s
      else if x.nextCode < 4096 then presentRegister c s
      else presentFull c s
    else if c.toNat = x.nextCode then
      if x.prevValid then execKwkwk c s else .next (raise .corruptedStream 5 c s)
    else .next (raise .corruptedStream 4 c s)

/-- Running the decoded class is the operation of R150. -/
theorem exec_decodeCode (x : CodeCtx) (c : Code) (s : State) : exec (decodeCode x c) s = classStep x c s := by
  unfold decodeCode classStep
  cases x.phase with
  | first =>
    simp only
    by_cases h1 : x.firstCheck = false
    · simp [h1]; rfl
    · by_cases h2 : c.toNat = rootSize x.minCode
      · simp [h1, h2, exec_firstClearRow]
      · simp [h1, h2]; rfl
  | loop =>
    simp only
    by_cases h1 : c.toNat = rootSize x.minCode
    · simp [h1, exec_clearRow]
    by_cases h2 : c.toNat = rootSize x.minCode + 1
    · simp [h2, exec_endRow]
    by_cases h3 : c.toNat < rootSize x.minCode
    · have h5 : c.toNat < rootSize x.minCode ∨ c.toNat < x.nextCode := .inl h3
      rw [if_neg h1, if_neg h2, if_pos h3, if_neg h1, if_neg h2, if_pos h5]
      split
      · exact exec_litNoprevRow h3 s
      · split
        · exact exec_litRow h3 s
        · exact exec_litFullRow h3 s
    by_cases h4 : c.toNat < x.nextCode
    · have h5 : c.toNat < rootSize x.minCode ∨ c.toNat < x.nextCode := .inr h4
      rw [if_neg h1, if_neg h2, if_neg h3, if_pos h4, if_neg h1, if_neg h2, if_pos h5]
      split
      · rfl
      · split <;> rfl
    rw [if_neg h1, if_neg h2, if_neg h3, if_neg h4, if_neg h1, if_neg h2, if_neg (not_or.2 ⟨h3, h4⟩)]
    split
    · split <;> rfl
    · rfl

/-- Everything the engine's turn can do in a state with a legal MIN_CODE_SIZE. -/
theorem engineTurn_eq {s : State} {x : CodeCtx} (hb : s.blk.state = .busy) (hx : codeCtx s.blk = some x) :
    engineTurn s =
      if avail s.blk < s.blk.codeWidth.toNat then execEod s else classStep x (codeAtCursor s) s := by
  have hb' : isBusy s.blk = true := by simp [isBusy, hb]
  simp only [engineTurn, hb', if_true, fetchCode, hx]
  by_cases h : avail s.blk < s.blk.codeWidth.toNat
  · simp only [if_pos h]; rfl
  · simp only [if_neg h]; exact exec_decodeCode x _ s

/-- Outside BUSY the engine's turn changes nothing (R135). -/
theorem engineTurn_of_not_busy {s : State} (hb : s.blk.state ≠ .busy) : engineTurn s = .next s := by
  simp [engineTurn, isBusy, hb]

/-- What the decoder reads of a block with a legal MIN_CODE_SIZE. -/
theorem codeCtx_of_legal {b : Block} (h2 : 2 ≤ minCodeSize b) (h8 : minCodeSize b ≤ 8) :
    ∃ m, minCodeNat m = minCodeSize b ∧ codeCtx b = some
      { phase := b.phase, firstCheck := firstCheck b, minCode := m, prevValid := b.prevValid, nextCode := b.nextCode.toNat } := by
  have hm : ∃ m, minCodeNat m = minCodeSize b ∧ minCodeOfNat (minCodeSize b) = some m := by
    generalize minCodeSize b = k at *
    interval_cases k
    · exact ⟨.m2, rfl, rfl⟩
    · exact ⟨.m3, rfl, rfl⟩
    · exact ⟨.m4, rfl, rfl⟩
    · exact ⟨.m5, rfl, rfl⟩
    · exact ⟨.m6, rfl, rfl⟩
    · exact ⟨.m7, rfl, rfl⟩
    · exact ⟨.m8, rfl, rfl⟩
  obtain ⟨m, h1, h2⟩ := hm
  exact ⟨m, h1, by simp only [codeCtx, h2]⟩

/-! ## The meanings that emit -/

/-- What a present code with no previous code does (R141), once. -/
theorem presentNoPrev_cases {c : Code} {s t : State} (h : presentNoPrev c s = .next t) :
    (s.sinkAccepts = false ∧ t = s) ∨ ∃ x xs, entryAt s.blk.table c = .seq x xs ∧ s.sinkAccepts = true ∧
      t = { emitAll (x :: xs) (codeRead s) with blk := setPrev c (emitAll (x :: xs) (codeRead s)).blk } := by
  unfold presentNoPrev at h
  split at h
  · next x xs he =>
    split at h
    · next hs => exact .inr ⟨x, xs, he, hs, by simpa using h.symm⟩
    · next hs => exact .inl ⟨by simpa using hs, by simpa using h.symm⟩
  · exact absurd h (by simp)

/-- What a present code with a previous code and room in the table does (R142), once. -/
theorem presentRegister_cases {c : Code} {s t : State} (h : presentRegister c s = .next t) :
    (s.sinkAccepts = false ∧ t = s) ∨ ∃ x xs p ps, entryAt s.blk.table c = .seq x xs ∧
      entryAt s.blk.table s.blk.prev = .seq p ps ∧ s.sinkAccepts = true ∧
      t = { emitAll (x :: xs) (codeRead s) with
        blk := setPrev c (register p (ps ++ [x]) (emitAll (x :: xs) (codeRead s)).blk) } := by
  unfold presentRegister at h
  split at h
  · next x xs p ps he hp =>
    split at h
    · next hs => exact .inr ⟨x, xs, p, ps, he, hp, hs, by simpa using h.symm⟩
    · next hs => exact .inl ⟨by simpa using hs, by simpa using h.symm⟩
  · exact absurd h (by simp)

/-- What a KwKwK code with a previous code does (R144), once. -/
theorem execKwkwk_cases {c : Code} {s t : State} (h : execKwkwk c s = .next t) :
    (s.sinkAccepts = false ∧ t = s) ∨ ∃ p ps, entryAt s.blk.table s.blk.prev = .seq p ps ∧ s.sinkAccepts = true ∧
      t = { emitAll (p :: (ps ++ [p])) (codeRead s) with
        blk := setPrev c (register p (ps ++ [p]) (emitAll (p :: (ps ++ [p])) (codeRead s)).blk) } := by
  unfold execKwkwk at h
  split at h
  · next p ps he =>
    split at h
    · next hs => exact .inr ⟨p, ps, he, hs, by simpa using h.symm⟩
    · next hs => exact .inl ⟨by simpa using hs, by simpa using h.symm⟩
  · exact absurd h (by simp)

/-! ## Host transactions -/

/-- The moves a host transaction of `bits` bits and word `w` can make, each with what the transaction is then: nothing, INIT, ABORT, a
register write, a read, a refusal. -/
inductive HostMove (s : State) (bits : Nat) (w : HbusWord) : State → Prop
  | ignored : bits = 32 → hbusWe w = true → HostMove s bits w s
  | start : bits = 32 → hbusWe w = true → hbusOff w = 0 → (hbusData w).extractLsb' 0 2 = 1 → s.blk.state ≠ .busy →
      HostMove s bits w (init s)
  | abort : bits = 32 → hbusWe w = true → hbusOff w = 0 → (hbusData w).getLsbD 1 = true → HostMove s bits w (abortBlock s)
  | writeConfig : bits = 32 → hbusWe w = true → hbusOff w = 4 →
      HostMove s bits w { s with blk := writeConfig (hbusData w) s.blk }
  | writeInLen : bits = 32 → hbusWe w = true → hbusOff w = 8 →
      HostMove s bits w { s with blk := writeInLen (hbusData w) s.blk }
  | readExact (v : Word) : bits = 32 → hbusWe w = false → HostMove s bits w (readExact v s)
  | readResult (v : Word) : bits = 32 → hbusWe w = false → HostMove s bits w (readResult v s)
  | refuse : bits ≠ 32 ∨ (hbusOff w).extractLsb' 0 2 ≠ 0 → HostMove s bits w (refuse s)

/-- The instruction goes on, by one of the moves of a host transaction. -/
def Moves (s : State) (bits : Nat) (w : HbusWord) (i : Instr) : Prop := ∃ t, exec i s = .next t ∧ HostMove s bits w t

theorem moves_ite {s : State} {bits : Nat} {w : HbusWord} {p : Prop} [Decidable p] {i j : Instr}
    (hi : p → Moves s bits w i) (hj : ¬p → Moves s bits w j) : Moves s bits w (if p then i else j) := by
  split
  · exact hi ‹_›
  · exact hj ‹_›

/-- A CTRL word with START and without ABORT (R189). -/
theorem ctrl_start_bits {d : Word} (h0 : d.getLsbD 0 = true) (h1 : ¬ d.getLsbD 1 = true) : d.extractLsb' 0 2 = 1 := by
  refine BitVec.eq_of_getLsbD_eq fun i hi => ?_
  obtain rfl | rfl : i = 0 ∨ i = 1 := by omega
  · simpa using h0
  · simpa using h1

theorem decodeCtrl_moves (s : State) {w : HbusWord} (hw : hbusWe w = true) (ho : hbusOff w = 0) :
    Moves s 32 w (decodeCtrl (isBusy s.blk) (hbusData w)) := by
  unfold decodeCtrl
  refine moves_ite (fun h => ⟨_, rfl, .abort rfl hw ho h⟩) fun h1 => moves_ite (fun h0 => moves_ite (fun _ => ⟨_, rfl, .ignored rfl hw⟩)
    fun h => ⟨_, rfl, .start rfl hw ho (ctrl_start_bits h0 h1) (by simpa [isBusy] using h)⟩) fun _ => ⟨_, rfl, .ignored rfl hw⟩

theorem decodeRead_moves (s : State) {w : HbusWord} (hw : hbusWe w = false) (off : BitVec 8) (d : Word) :
    Moves s 32 w (decodeRead off d) := by
  unfold decodeRead
  repeat' refine moves_ite (fun _ => ?_) fun _ => ?_
  all_goals first
    | exact ⟨_, rfl, .readExact _ rfl hw⟩
    | exact ⟨_, rfl, .readResult _ rfl hw⟩

theorem decodeWrite_moves (s : State) {w : HbusWord} (hw : hbusWe w = true) :
    Moves s 32 w (decodeWrite (isBusy s.blk) (hbusOff w) (hbusData w)) := by
  unfold decodeWrite
  refine moves_ite (fun ho => decodeCtrl_moves s hw ho) fun _ => moves_ite (fun ho => ⟨_, rfl, .writeConfig rfl hw ho⟩)
    fun _ => moves_ite (fun ho => ⟨_, rfl, .writeInLen rfl hw ho⟩) fun _ => ?_
  repeat' refine moves_ite (fun _ => ?_) fun _ => ?_
  all_goals exact ⟨_, rfl, .ignored rfl hw⟩

/-- An offset that is no multiple of 4 (R89). -/
theorem hbusOff_unaligned {w : HbusWord} (h : w.getLsbD 32 = true ∨ w.getLsbD 33 = true) : (hbusOff w).extractLsb' 0 2 ≠ 0 := by
  intro hz
  have h0 := congrArg (fun x => x.getLsbD 0) hz
  have h1 := congrArg (fun x => x.getLsbD 1) hz
  simp [hbusOff] at h0 h1
  simp [h0, h1] at h

/-- Every host transaction goes on, by one of these moves. -/
theorem decodeHbus_moves (s : State) (bits : Nat) (w : HbusWord) : Moves s bits w (decodeHbus (isBusy s.blk) bits w) := by
  unfold decodeHbus
  refine moves_ite (fun h => ⟨_, rfl, .refuse (.inl h)⟩) fun h => ?_
  obtain rfl : bits = 32 := by simpa using h
  exact moves_ite (fun h => ⟨_, rfl, .refuse (.inr (hbusOff_unaligned (.inl h)))⟩)
    fun _ => moves_ite (fun h => ⟨_, rfl, .refuse (.inr (hbusOff_unaligned (.inr h)))⟩)
    fun _ => moves_ite (fun hw => decodeWrite_moves s hw) fun hw => decodeRead_moves s (by simpa using hw) _ _

end Sys2Proof.Machine
end

