-- ==== Sys2Proof/Laws/Moves.lean ====
section
/-! SUPPORT. Everything the engine's turn can do from a BUSY state, said once with the fields it leaves, and what the tables of a
running decode hold (R131 to R150, R160 to R164). -/

namespace Sys2Proof.Machine

open Sys2Proof

/-! ## A running decode -/

/-- ROOT_SIZE lies between 4 and 256 (R33). -/
theorem rootSize_bounds {s : State} (h : EngineOk s) : 4 ≤ rootSizeOf s.blk ∧ rootSizeOf s.blk ≤ 256 := by
  have h1 := Nat.pow_le_pow_right (n := 2) (by decide) h.minCode.1
  have h2 := Nat.pow_le_pow_right (n := 2) (by decide) h.minCode.2
  exact ⟨h1, h2⟩

/-- CODE_WIDTH lies between 3 and 12 (R26, R160). -/
theorem codeWidth_bounds {s : State} (h : EngineOk s) : 3 ≤ s.blk.codeWidth.toNat ∧ s.blk.codeWidth.toNat ≤ 12 := by
  have h1 := rootSize_bounds h
  have h2 := h.next
  rw [h.width]
  have : ¬ bitLen s.blk.nextCode.toNat ≤ 2 := by rw [bitLen_le_iff]; omega
  omega

/-- The initial table is in order (R35). -/
theorem tableOk_initTable {root : Nat} (n : Nat) (hn : n ≤ root + 2) : TableOk root n (initTable root) where
  roots c h := entryAt_initTable_root h
  clear c h := entryAt_initTable_clear h
  endMark c h := entryAt_initTable_endMark h
  dynamic c h1 h2 := absurd h2 (by omega)

/-- The table `zerosTable` stands for is in order (log 2). -/
theorem tableOk_zerosTable {root : Nat} (h : 0 < root) (next : Nat) : TableOk root next (zerosTable root next) := by
  have he : ∀ c : Code, entryAt (zerosTable root next) c =
      if root + 2 ≤ c.toNat ∧ c.toNat < next then .seq 0 [0] else initEntry root c.toNat := entryAt_tabulate _
  constructor
  · intro c hc
    rw [he, if_neg (by omega), initEntry, if_pos hc]
    congr 1
  · intro c hc
    rw [he, if_neg (by omega), initEntry, if_neg (by omega), if_pos hc]
  · intro c hc
    rw [he, if_neg (by omega), initEntry, if_neg (by omega), if_neg (by omega), if_pos hc]
  · intro c h1 h2
    refine ⟨0, 0, [], 0, ?_, ?_, ?_, h⟩
    · show 0 < c.toNat; omega
    · rw [he, if_neg (by simp), initEntry, if_pos (by simpa using h)]; rfl
    · rw [he, if_pos ⟨h1, h2⟩]; rfl

/-- The sequences of a table in order: of root indices (R167), a root's its own index, a dynamic one no longer than its distance from
ROOT_SIZE (R164). -/
theorem tableOk_sequence {root next : Nat} {t : Table} (h : TableOk root next t) (h256 : root ≤ 256) (c : Code) {x xs}
    (hc : c.toNat < next) (he : entryAt t c = .seq x xs) :
    (∀ y ∈ x :: xs, y.toNat < root) ∧ (c.toNat < root → xs = []) ∧
    (root ≤ c.toNat → root + 2 ≤ c.toNat ∧ xs.length + 1 ≤ c.toNat - root) := by
  generalize hn : c.toNat = n
  induction n using Nat.strongRecOn generalizing c x xs with
  | ind n ih =>
    subst hn
    rcases Nat.lt_or_ge c.toNat root with hlt | hge
    · rw [h.roots c hlt] at he
      cases he
      refine ⟨?_, fun _ => rfl, fun hh => by omega⟩
      intro y hy
      simp at hy
      subst hy
      simp; omega
    · have h1 : c.toNat ≠ root := fun e => by rw [h.clear c e] at he; cases he
      have h2 : c.toNat ≠ root + 1 := fun e => by rw [h.endMark c e] at he; cases he
      have h3 : root + 2 ≤ c.toNat := by omega
      obtain ⟨q, x', xs', y, hq, hqe, hce, hy⟩ := h.dynamic c h3 hc
      rw [hce] at he
      cases he
      obtain ⟨ia, ib, ic⟩ := ih q.toNat hq q (by omega) hqe rfl
      refine ⟨?_, fun hh => by omega, fun _ => ⟨h3, ?_⟩⟩
      · intro z hz
        simp only [List.mem_cons, List.mem_append, List.not_mem_nil, or_false] at hz
        rcases hz with rfl | hz | rfl
        · exact ia _ (by simp)
        · exact ia _ (by simp [hz])
        · exact hy
      · simp only [List.length_append, List.length_cons, List.length_nil]
        rcases Nat.lt_or_ge q.toNat root with hqr | hqr
        · rw [ib hqr]; simp; omega
        · have := (ic hqr).2; omega

/-- Present codes have sequences. -/
theorem tableOk_present {root next : Nat} {t : Table} (h : TableOk root next t) {c : Code}
    (h1 : c.toNat ≠ root) (h2 : c.toNat ≠ root + 1) (h3 : c.toNat < root ∨ c.toNat < next) :
    ∃ x xs, entryAt t c = .seq x xs := by
  rcases Nat.lt_or_ge c.toNat root with hlt | hge
  · exact ⟨_, _, h.roots c hlt⟩
  · obtain ⟨q, x, xs, y, -, -, hc, -⟩ := h.dynamic c (by omega) (by omega)
    exact ⟨_, _, hc⟩

theorem rootSize_eq_rootSizeOf {m : MinCode} {b : Block} (h : minCodeNat m = minCodeSize b) : rootSize m = rootSizeOf b := by
  simp [rootSize, rootSizeOf, h]

theorem inLen_lt (b : Block) : 8 * b.inLen.toNat < 2 ^ 35 - 8 + 1 := by
  have := b.inLen.isLt; omega

/-- Where CODE_WIDTH bits remain, P advances by CODE_WIDTH (R113, R136). -/
theorem read_cursor {s : State} (h : s.blk.codeWidth.toNat ≤ avail s.blk) :
    cursor (codeRead s).blk = cursor s.blk + s.blk.codeWidth.toNat := by
  rcases Nat.eq_zero_or_pos s.blk.codeWidth.toNat with h0 | h0
  · rw [codeRead, h0]; rfl
  · have := inLen_lt s.blk
    unfold avail at h
    apply codeRead_cursor; omega

theorem cursor_le {s : State} (h : s.blk.codeWidth.toNat ≤ avail s.blk) (hw : 0 < s.blk.codeWidth.toNat) :
    cursor s.blk + s.blk.codeWidth.toNat ≤ 8 * s.blk.inLen.toNat := by
  unfold avail at h; omega

theorem minCodeSize_congr {a b : Block} (h : a.config = b.config) : minCodeSize a = minCodeSize b := by
  unfold minCodeSize; rw [h]
theorem rootSizeOf_congr {a b : Block} (h : a.config = b.config) : rootSizeOf a = rootSizeOf b := by
  unfold rootSizeOf; rw [minCodeSize_congr h]

/-- The initial CODE_WIDTH obeys R160. -/
theorem bitLen_fresh {m : Nat} (h2 : 2 ≤ m) (h8 : m ≤ 8) : m + 1 = min 12 (bitLen (2 ^ m + 2)) := by
  interval_cases m <;> decide

/-- NEXT_CODE and CODE_WIDTH after TableInit (R130, R139). -/
theorem freshTable_facts {b : Block} (h2 : 2 ≤ minCodeSize b) (h8 : minCodeSize b ≤ 8) :
    (freshTable b).nextCode.toNat = rootSizeOf b + 2 ∧ (freshTable b).codeWidth.toNat = minCodeSize b + 1 := by
  have h := Nat.pow_le_pow_right (n := 2) (by decide) h8
  constructor
  · simp only [freshTable, BitVec.toNat_ofNat, rootSizeOf]; rw [Nat.mod_eq_of_lt]; omega
  · simp only [freshTable, BitVec.toNat_ofNat]; rw [Nat.mod_eq_of_lt]; omega

/-! ## The moves -/

/-- The outcomes of the engine's turn in BUSY: the sink holds the step, an error, an accepted first code, CLEAR, END, and the three
that emit (R141, R142, R144), each with what the state before it was. -/
inductive CodeMove (s : State) : State → Prop
  | held : s.sinkAccepts = false → CodeMove s s
  | eod (d : BitVec 4) : (d = 6 ∨ d = 7) → CodeMove s (raiseNoCode .unexpectedEndOfData d s)
  | err (k : ErrKind) (d : BitVec 4) (c : Code) : errorPair k d = true → CodeMove s (raise k d c s)
  | accept : s.blk.phase = .first → CodeMove s (acceptFirst s)
  | clear : s.blk.phase = .loop → CodeMove s (clearTable s)
  | done : s.blk.phase = .loop → (codeAtCursor s).toNat = rootSizeOf s.blk + 1 → CodeMove s (endDecode s)
  | noPrev (c : Code) (x : Index) (xs : List Index) : s.blk.phase = .loop → s.blk.prevValid = false →
      c.toNat < s.blk.nextCode.toNat ∨ c.toNat < rootSizeOf s.blk → entryAt s.blk.table c = .seq x xs →
      CodeMove s { emitAll (x :: xs) (codeRead s) with blk := setPrev c (emitAll (x :: xs) (codeRead s)).blk }
  | reg (c : Code) (x : Index) (xs : List Index) (p : Index) (ps : List Index) : s.blk.phase = .loop → s.blk.prevValid = true →
      s.blk.nextCode.toNat < 4096 →
      (c.toNat < s.blk.nextCode.toNat ∨ c.toNat < rootSizeOf s.blk) → entryAt s.blk.table c = .seq x xs →
      entryAt s.blk.table s.blk.prev = .seq p ps →
      CodeMove s { emitAll (x :: xs) (codeRead s) with
        blk := setPrev c (register p (ps ++ [x]) (emitAll (x :: xs) (codeRead s)).blk) }
  | kw (c : Code) (p : Index) (ps : List Index) : s.blk.phase = .loop → s.blk.prevValid = true → c.toNat = s.blk.nextCode.toNat →
      entryAt s.blk.table s.blk.prev = .seq p ps →
      CodeMove s { emitAll (p :: (ps ++ [p])) (codeRead s) with
        blk := setPrev c (register p (ps ++ [p]) (emitAll (p :: (ps ++ [p])) (codeRead s)).blk) }

/-- What the decoder reads are the fields of the block. -/
theorem codeCtx_some {b : Block} {x : CodeCtx} (h : codeCtx b = some x) :
    x.phase = b.phase ∧ x.firstCheck = firstCheck b ∧ x.prevValid = b.prevValid ∧ x.nextCode = b.nextCode.toNat ∧
    rootSize x.minCode = rootSizeOf b := by
  unfold codeCtx at h
  split at h
  · cases h
  · next m hm =>
    cases h
    refine ⟨rfl, rfl, rfl, rfl, ?_⟩
    have : ∀ k, minCodeOfNat k = some m → minCodeNat m = k := by
      intro k hk
      unfold minCodeOfNat at hk
      split at hk <;> first | (cases hk; rfl) | cases hk
    exact rootSize_eq_rootSizeOf (this _ hm)

/-- Everything the engine's turn can do in BUSY when it goes on. -/
theorem engineTurn_moves {s t : State} (hb : s.blk.state = .busy) (h : engineTurn s = .next t) :
    (avail s.blk < s.blk.codeWidth.toNat ∧ ∃ d, (d = 6 ∨ d = 7) ∧ t = raiseNoCode .unexpectedEndOfData d s) ∨
    (s.blk.codeWidth.toNat ≤ avail s.blk ∧ CodeMove s t) := by
  cases hx : codeCtx s.blk with
  | none =>
    simp only [engineTurn, isBusy, hb, fetchCode, hx] at h
    by_cases ha : avail s.blk < s.blk.codeWidth.toNat
    · simp only [ha, if_true, beq_self_eq_true] at h
      refine .inl ⟨ha, ?_⟩
      change execEod s = _ at h
      unfold execEod at h
      split at h
      · exact ⟨6, .inl rfl, by simpa using h.symm⟩
      · exact ⟨7, .inr rfl, by simpa using h.symm⟩
    · simp only [ha, if_false] at h
      simp at h
  | some x =>
    obtain ⟨e1, e2, e3, e4, e5⟩ := codeCtx_some hx
    rw [engineTurn_eq hb hx] at h
    split at h
    · next ha =>
      refine .inl ⟨ha, ?_⟩
      unfold execEod at h
      split at h
      · exact ⟨6, .inl rfl, by simpa using h.symm⟩
      · exact ⟨7, .inr rfl, by simpa using h.symm⟩
    · next ha =>
      refine .inr ⟨by omega, ?_⟩
      unfold classStep at h
      simp only [e1, e3, e4, e5] at h
      split at h
      · next hph =>
        split at h
        · cases h; exact .err _ _ _ rfl
        · cases h; exact .accept hph
      · next hph =>
        split at h
        · cases h; exact .clear hph
        split at h
        · next hc => cases h; exact .done hph hc
        split at h
        · next h3 =>
          split at h
          · next hv =>
            rcases presentNoPrev_cases h with ⟨ha, rfl⟩ | ⟨x, xs, he, -, rfl⟩
            · exact .held ha
            · exact .noPrev _ x xs hph hv h3.symm he
          split at h
          · next hv hn =>
            rcases presentRegister_cases h with ⟨ha, rfl⟩ | ⟨x, xs, p, ps, he, hp, -, rfl⟩
            · exact .held ha
            · exact .reg _ x xs p ps hph (by simpa using hv) hn h3.symm he hp
          · cases h; exact .err _ _ _ rfl
        split at h
        · next h4 =>
          split at h
          · next hv =>
            rcases execKwkwk_cases h with ⟨ha, rfl⟩ | ⟨p, ps, hp, -, rfl⟩
            · exact .held ha
            · exact .kw _ p ps hph hv h4 hp
          · cases h; exact .err _ _ _ rfl
        · cases h; exact .err _ _ _ rfl

/-- The state once the code is read and a sequence is emitted, field by field. -/
theorem emitRead_fields (xs : List Index) (s : State) :
    emitAll xs (codeRead s) = { s with
      out := s.out ++ xs
      blk := { s.blk with
        byteIndex := (codeRead s).blk.byteIndex, bitIndex := (codeRead s).blk.bitIndex
        outCount := s.blk.outCount + BitVec.ofNat 64 xs.length }
      draws := (codeRead s).draws } := by
  rw [emitAll_eq]
  rw [codeRead_frame s]

/-- A registration of a present sequence with a root index at its end keeps the table in order (R132, R162). -/
theorem tableOk_register {s : State} (he : EngineOk s) {b : Block}
    (hbt : b.table = s.blk.table) (hbn : b.nextCode = s.blk.nextCode) {p : Index} {ps : List Index} {y : Index} (q : Code)
    (hq : q.toNat < s.blk.nextCode.toNat) (hqe : entryAt s.blk.table q = .seq p ps) (hy : y.toNat < rootSizeOf s.blk) :
    TableOk (rootSizeOf s.blk) (s.blk.nextCode.toNat + 1) (register p (ps ++ [y]) b).table := by
  have hnx := he.next
  have hent : ∀ c : Code, entryAt (register p (ps ++ [y]) b).table c =
      if c.toNat = s.blk.nextCode.toNat then .seq p (ps ++ [y]) else entryAt s.blk.table c := by
    intro c; rw [entryAt_register, hbt, hbn]
  constructor
  · intro c hc; rw [hent, if_neg (by omega)]; exact he.table.roots c hc
  · intro c hc; rw [hent, if_neg (by omega)]; exact he.table.clear c hc
  · intro c hc; rw [hent, if_neg (by omega)]; exact he.table.endMark c hc
  · intro c h1 h2
    by_cases hc : c.toNat = s.blk.nextCode.toNat
    · refine ⟨q, p, ps, y, by omega, ?_, ?_, hy⟩
      · rw [hent, if_neg (by omega)]; exact hqe
      · rw [hent, if_pos hc]
    · obtain ⟨q', x', xs', y', h3, h4, h5, h6⟩ := he.table.dynamic c h1 (by omega)
      refine ⟨q', x', xs', y', h3, ?_, ?_, h6⟩
      · rw [hent, if_neg (by omega)]; exact h4
      · rw [hent, if_neg hc]; exact h5

/-- A present code's sequence: root indices, and how many (R164, R167). -/
theorem sequence_length_le {s : State} (he : EngineOk s) {c : Code} {x xs} (hc : c.toNat < s.blk.nextCode.toNat)
    (h : entryAt s.blk.table c = .seq x xs) :
    (∀ y ∈ x :: xs, y.toNat < rootSizeOf s.blk) ∧ xs.length + 1 ≤ max 1 (c.toNat - rootSizeOf s.blk) := by
  obtain ⟨a, b, d⟩ := tableOk_sequence he.table (rootSize_bounds he).2 c hc h
  refine ⟨a, ?_⟩
  rcases Nat.lt_or_ge c.toNat (rootSizeOf s.blk) with h1 | h1
  · rw [b h1]; simp
  · have := (d h1).2; omega

/-- What every move of the engine leaves. -/
theorem codeMove_frame {s t : State} (h : CodeMove s t) :
    t.input = s.input ∧ t.changed = s.changed ∧ t.refusalMark = s.refusalMark ∧ t.pending = s.pending ∧
    t.sinkAccepts = s.sinkAccepts ∧ t.sinkPast = s.sinkPast := by
  cases h <;> simp [raiseNoCode, acceptFirst, clearTable, endDecode, emitAll_eq]

/-- `engineTurn_moves` where it does not matter how many bits were left. -/
theorem engineTurn_codeMove {s t : State} (hb : s.blk.state = .busy) (h : engineTurn s = .next t) : CodeMove s t := by
  rcases engineTurn_moves hb h with ⟨-, d, hd, rfl⟩ | ⟨-, h⟩
  · exact .eod d hd
  · exact h

/-- What CLEAR writes in the block, the cursor named as the code read's (R139). -/
theorem clearTable_blk (s : State) : (clearTable s).blk =
    { freshTable s.blk with
      byteIndex := (codeRead s).blk.byteIndex, bitIndex := (codeRead s).blk.bitIndex, prevValid := false } := by
  simp only [clearTable, freshTable]; rw [codeRead_frame s]; rfl

/-- What an accepted first code writes in the block, the cursor named as the code read's (R138). -/
theorem acceptFirst_blk (s : State) : (acceptFirst s).blk =
    { s.blk with
      phase := .loop, byteIndex := (codeRead s).blk.byteIndex, bitIndex := (codeRead s).blk.bitIndex } := by
  simp only [acceptFirst]; rw [codeRead_frame s]

end Sys2Proof.Machine
end

