-- ==== Sys2Proof/Laws/PerInstr.lean ====
section
/-! SUPPORT. Statements made of every instruction, one lemma per constructor. -/

namespace Sys2Proof.Laws.RowBits

open Sys2Proof

/-- The mask and the match of the instruction's row in spec/opcode_table.json; a code's bits stand in the low 12. -/
def row : Instr → BitVec 41 × BitVec 41
  | .start _ => (0x1FF00000003, 0x10000000001)
  | .startBusy _ => (0x1FF00000003, 0x10000000001)
  | .abort _ _ => (0x1FF00000002, 0x10000000002)
  | .ctrlNop _ => (0x1FF00000003, 0x10000000000)
  | .wrConfig _ => (0x1FF00000000, 0x10400000000)
  | .wrInLen _ => (0x1FF00000000, 0x10800000000)
  | .rdCtrl _ => (0x1FF00000000, 0x0)
  | .rdConfig _ => (0x1FF00000000, 0x400000000)
  | .rdInLen _ => (0x1FF00000000, 0x800000000)
  | .rdStatus _ => (0x1FF00000000, 0xC00000000)
  | .rdCodeWidth _ => (0x1FF00000000, 0x1000000000)
  | .rdNextCode _ => (0x1FF00000000, 0x1400000000)
  | .rdPrevCode _ => (0x1FF00000000, 0x1800000000)
  | .rdByteIndex _ => (0x1FF00000000, 0x1C00000000)
  | .rdBitIndex _ => (0x1FF00000000, 0x2000000000)
  | .rdOutCountLo _ => (0x1FF00000000, 0x2400000000)
  | .rdOutCountHi _ => (0x1FF00000000, 0x2800000000)
  | .rdErrCode _ => (0x1FF00000000, 0x2C00000000)
  | .wrStatus _ => (0x1FF00000000, 0x10C00000000)
  | .wrCodeWidth _ => (0x1FF00000000, 0x11000000000)
  | .wrNextCode _ => (0x1FF00000000, 0x11400000000)
  | .wrPrevCode _ => (0x1FF00000000, 0x11800000000)
  | .wrByteIndex _ => (0x1FF00000000, 0x11C00000000)
  | .wrBitIndex _ => (0x1FF00000000, 0x12000000000)
  | .wrOutCountLo _ => (0x1FF00000000, 0x12400000000)
  | .wrOutCountHi _ => (0x1FF00000000, 0x12800000000)
  | .wrErrCode _ => (0x1FF00000000, 0x12C00000000)
  | .rdUnmapped30 _ _ => (0x1F300000000, 0x3000000000)
  | .rdUnmapped40 _ _ => (0x14300000000, 0x4000000000)
  | .rdUnmapped80 _ _ => (0x1C300000000, 0x8000000000)
  | .wrUnmapped30 _ _ => (0x1F300000000, 0x13000000000)
  | .wrUnmapped40 _ _ => (0x14300000000, 0x14000000000)
  | .wrUnmapped80 _ _ => (0x1C300000000, 0x18000000000)
  | .refusedOff0 _ _ => (0x100000000, 0x100000000)
  | .refusedOff1 _ => (0x200000000, 0x200000000)
  | .eod => (0x0, 0x0)
  | .first _ => (0x0, 0x0)
  | .firstClearM2 => (0xFFF, 0x4)
  | .firstClearM3 => (0xFFF, 0x8)
  | .firstClearM4 => (0xFFF, 0x10)
  | .firstClearM5 => (0xFFF, 0x20)
  | .firstClearM6 => (0xFFF, 0x40)
  | .firstClearM7 => (0xFFF, 0x80)
  | .firstClearM8 => (0xFFF, 0x100)
  | .firstBad _ => (0x0, 0x0)
  | .clearM2 => (0xFFF, 0x4)
  | .clearM3 => (0xFFF, 0x8)
  | .clearM4 => (0xFFF, 0x10)
  | .clearM5 => (0xFFF, 0x20)
  | .clearM6 => (0xFFF, 0x40)
  | .clearM7 => (0xFFF, 0x80)
  | .clearM8 => (0xFFF, 0x100)
  | .endM2 => (0xFFF, 0x5)
  | .endM3 => (0xFFF, 0x9)
  | .endM4 => (0xFFF, 0x11)
  | .endM5 => (0xFFF, 0x21)
  | .endM6 => (0xFFF, 0x41)
  | .endM7 => (0xFFF, 0x81)
  | .endM8 => (0xFFF, 0x101)
  | .litM2Noprev _ => (0xFFC, 0x0)
  | .litM2 _ => (0xFFC, 0x0)
  | .litM2Full _ => (0xFFC, 0x0)
  | .litM3Noprev _ => (0xFF8, 0x0)
  | .litM3 _ => (0xFF8, 0x0)
  | .litM3Full _ => (0xFF8, 0x0)
  | .litM4Noprev _ => (0xFF0, 0x0)
  | .litM4 _ => (0xFF0, 0x0)
  | .litM4Full _ => (0xFF0, 0x0)
  | .litM5Noprev _ => (0xFE0, 0x0)
  | .litM5 _ => (0xFE0, 0x0)
  | .litM5Full _ => (0xFE0, 0x0)
  | .litM6Noprev _ => (0xFC0, 0x0)
  | .litM6 _ => (0xFC0, 0x0)
  | .litM6Full _ => (0xFC0, 0x0)
  | .litM7Noprev _ => (0xF80, 0x0)
  | .litM7 _ => (0xF80, 0x0)
  | .litM7Full _ => (0xF80, 0x0)
  | .litM8Noprev _ => (0xF00, 0x0)
  | .litM8 _ => (0xF00, 0x0)
  | .litM8Full _ => (0xF00, 0x0)
  | .dictNoprev _ => (0x0, 0x0)
  | .dict _ => (0x0, 0x0)
  | .dictFull _ => (0x0, 0x0)
  | .kwkwk _ => (0x0, 0x0)
  | .kwkwkNoprev _ => (0x0, 0x0)
  | .beyond _ => (0x0, 0x0)

/-- The bits of the encoded form, as the row numbers them. An access that is not 32 bits wide is no word of the row REFUSED_OFF0,
whose condition names it beside the word. -/
def bits : Encoded → Option (BitVec 41)
  | .hbus 32 w => some w
  | .hbus _ _ => none
  | .code c => some (c.setWidth 41)
  | .noCode => some 0

/-- The encoded word of a well-formed instruction has the bits its row fixes. -/
def Statement (i : Instr) : Prop :=
  WellFormed i → ∀ w, bits (encode i) = some w → w &&& (row i).1 = (row i).2

/-- Masking a transaction field by field. -/
theorem hbusWord_and (a b : Bool) (o p : BitVec 8) (d e : Word) :
    hbusWord a o d &&& hbusWord b p e = hbusWord (a && b) (o &&& p) (d &&& e) := by
  unfold hbusWord
  rw [BitVec.and_append, BitVec.and_append, BitVec.ofBool_and_ofBool]

/-- A row that leaves WDATA free. -/
theorem of_hbus {i : Instr} {we : Bool} {off : BitVec 8} {d : Word} (m : Bool) (o : BitVec 8)
    (he : encode i = .hbus 32 (hbusWord we off d)) (hm : (row i).1 = hbusWord m o 0)
    (hv : WellFormed i → (row i).2 = hbusWord (we && m) (off &&& o) 0) : Statement i := by
  intro hw w h
  rw [he] at h
  cases h
  rw [hm, hv hw, hbusWord_and]
  exact congrArg _ BitVec.and_zero

/-- A CTRL row: the two low bits of WDATA are the row's. -/
theorem of_ctrl {i : Instr} {hi : BitVec 30} {low : BitVec 2} (l : BitVec 2) (he : encode i = .hbus 32 (ctrlWord hi low))
    (hm : (row i).1 = hbusWord true 0xFF#8 (0#30 ++ l)) (hv : (row i).2 = hbusWord true 0#8 (0#30 ++ (low &&& l))) :
    Statement i := by
  intro _ w h
  rw [he] at h
  cases h
  rw [hm, hv, ctrlWord, hbusWord_and, BitVec.and_append]
  simp

/-- A row that fixes every bit of the code, or leaves every bit free. -/
theorem of_code {i : Instr} {c : Code} (he : encode i = .code c) (hv : c.setWidth 41 &&& (row i).1 = (row i).2) : Statement i := by
  intro _ w h
  rw [he] at h
  cases h
  exact hv

/-- A LIT row: the code is below 2^m. -/
theorem of_root {i : Instr} {m : Nat} {c : BitVec m} (he : encode i = .code (c.setWidth 12))
    (hk : ∀ k, k < m → (row i).1.getLsbD k = false) (hv : (row i).2 = 0) : Statement i := by
  refine of_code he ?_
  rw [hv]
  apply BitVec.eq_of_getLsbD_eq
  intro k _
  simp only [BitVec.getLsbD_and, BitVec.getLsbD_setWidth]
  rcases Nat.lt_or_ge k m with h | h
  · simp [hk k h]
  · simp [BitVec.getLsbD_of_ge c k h]

theorem start (hi : BitVec 30) : Statement (.start hi) :=
  of_ctrl 0b11#2 rfl rfl rfl
theorem startBusy (hi : BitVec 30) : Statement (.startBusy hi) :=
  of_ctrl 0b11#2 rfl rfl rfl
theorem abort (start : Bool) (hi : BitVec 30) : Statement (.abort start hi) :=
  of_ctrl 0b10#2 rfl rfl (by cases start <;> rfl)
theorem ctrlNop (hi : BitVec 30) : Statement (.ctrlNop hi) :=
  of_ctrl 0b11#2 rfl rfl rfl
theorem wrConfig (wdata : Word) : Statement (.wrConfig wdata) :=
  of_hbus true 0xFF#8 rfl rfl fun _ => rfl
theorem wrInLen (wdata : Word) : Statement (.wrInLen wdata) :=
  of_hbus true 0xFF#8 rfl rfl fun _ => rfl
theorem rdCtrl (wdata : Word) : Statement (.rdCtrl wdata) :=
  of_hbus true 0xFF#8 rfl rfl fun _ => rfl
theorem rdConfig (wdata : Word) : Statement (.rdConfig wdata) :=
  of_hbus true 0xFF#8 rfl rfl fun _ => rfl
theorem rdInLen (wdata : Word) : Statement (.rdInLen wdata) :=
  of_hbus true 0xFF#8 rfl rfl fun _ => rfl
theorem rdStatus (wdata : Word) : Statement (.rdStatus wdata) :=
  of_hbus true 0xFF#8 rfl rfl fun _ => rfl
theorem rdCodeWidth (wdata : Word) : Statement (.rdCodeWidth wdata) :=
  of_hbus true 0xFF#8 rfl rfl fun _ => rfl
theorem rdNextCode (wdata : Word) : Statement (.rdNextCode wdata) :=
  of_hbus true 0xFF#8 rfl rfl fun _ => rfl
theorem rdPrevCode (wdata : Word) : Statement (.rdPrevCode wdata) :=
  of_hbus true 0xFF#8 rfl rfl fun _ => rfl
theorem rdByteIndex (wdata : Word) : Statement (.rdByteIndex wdata) :=
  of_hbus true 0xFF#8 rfl rfl fun _ => rfl
theorem rdBitIndex (wdata : Word) : Statement (.rdBitIndex wdata) :=
  of_hbus true 0xFF#8 rfl rfl fun _ => rfl
theorem rdOutCountLo (wdata : Word) : Statement (.rdOutCountLo wdata) :=
  of_hbus true 0xFF#8 rfl rfl fun _ => rfl
theorem rdOutCountHi (wdata : Word) : Statement (.rdOutCountHi wdata) :=
  of_hbus true 0xFF#8 rfl rfl fun _ => rfl
theorem rdErrCode (wdata : Word) : Statement (.rdErrCode wdata) :=
  of_hbus true 0xFF#8 rfl rfl fun _ => rfl
theorem wrStatus (wdata : Word) : Statement (.wrStatus wdata) :=
  of_hbus true 0xFF#8 rfl rfl fun _ => rfl
theorem wrCodeWidth (wdata : Word) : Statement (.wrCodeWidth wdata) :=
  of_hbus true 0xFF#8 rfl rfl fun _ => rfl
theorem wrNextCode (wdata : Word) : Statement (.wrNextCode wdata) :=
  of_hbus true 0xFF#8 rfl rfl fun _ => rfl
theorem wrPrevCode (wdata : Word) : Statement (.wrPrevCode wdata) :=
  of_hbus true 0xFF#8 rfl rfl fun _ => rfl
theorem wrByteIndex (wdata : Word) : Statement (.wrByteIndex wdata) :=
  of_hbus true 0xFF#8 rfl rfl fun _ => rfl
theorem wrBitIndex (wdata : Word) : Statement (.wrBitIndex wdata) :=
  of_hbus true 0xFF#8 rfl rfl fun _ => rfl
theorem wrOutCountLo (wdata : Word) : Statement (.wrOutCountLo wdata) :=
  of_hbus true 0xFF#8 rfl rfl fun _ => rfl
theorem wrOutCountHi (wdata : Word) : Statement (.wrOutCountHi wdata) :=
  of_hbus true 0xFF#8 rfl rfl fun _ => rfl
theorem wrErrCode (wdata : Word) : Statement (.wrErrCode wdata) :=
  of_hbus true 0xFF#8 rfl rfl fun _ => rfl
theorem rdUnmapped30 (off : BitVec 8) (wdata : Word) : Statement (.rdUnmapped30 off wdata) :=
  of_hbus true 0xF3#8 rfl rfl fun h => by rw [show off &&& 0xF3#8 = 0x30#8 from eq_of_beq h]; rfl
theorem rdUnmapped40 (off : BitVec 8) (wdata : Word) : Statement (.rdUnmapped40 off wdata) :=
  of_hbus true 0x43#8 rfl rfl fun h => by rw [show off &&& 0x43#8 = 0x40#8 from eq_of_beq h]; rfl
theorem rdUnmapped80 (off : BitVec 8) (wdata : Word) : Statement (.rdUnmapped80 off wdata) :=
  of_hbus true 0xC3#8 rfl rfl fun h => by rw [show off &&& 0xC3#8 = 0x80#8 from eq_of_beq h]; rfl
theorem wrUnmapped30 (off : BitVec 8) (wdata : Word) : Statement (.wrUnmapped30 off wdata) :=
  of_hbus true 0xF3#8 rfl rfl fun h => by rw [show off &&& 0xF3#8 = 0x30#8 from eq_of_beq h]; rfl
theorem wrUnmapped40 (off : BitVec 8) (wdata : Word) : Statement (.wrUnmapped40 off wdata) :=
  of_hbus true 0x43#8 rfl rfl fun h => by rw [show off &&& 0x43#8 = 0x40#8 from eq_of_beq h]; rfl
theorem wrUnmapped80 (off : BitVec 8) (wdata : Word) : Statement (.wrUnmapped80 off wdata) :=
  of_hbus true 0xC3#8 rfl rfl fun h => by rw [show off &&& 0xC3#8 = 0x80#8 from eq_of_beq h]; rfl
theorem refusedOff0 (bits : Nat) (word : HbusWord) : Statement (.refusedOff0 bits word) := by
  intro h w hw
  by_cases h32 : bits = 32
  · subst h32
    cases hw
    have h' : word.getLsbD 32 = true := by simpa [WellFormed, Instr.wf] using h
    exact (BitVec.and_twoPow word 32).trans (if_pos h')
  · have : RowBits.bits (.hbus bits word) = none := by unfold RowBits.bits; split <;> first | rfl | simp_all
    exact absurd (hw.symm.trans this) (by simp)
theorem refusedOff1 (word : HbusWord) : Statement (.refusedOff1 word) := by
  intro h w hw
  cases hw
  have h' : word.getLsbD 33 = true := by have h := h; simp [WellFormed, Instr.wf] at h; simpa using h.2
  exact (BitVec.and_twoPow word 33).trans (if_pos h')
theorem eod : Statement .eod :=
  fun _ w h => by cases h; decide
theorem first (code : Code) : Statement (.first code) :=
  of_code rfl (by simp [row])
theorem firstClearM2 : Statement .firstClearM2 :=
  of_code rfl (by decide)
theorem firstClearM3 : Statement .firstClearM3 :=
  of_code rfl (by decide)
theorem firstClearM4 : Statement .firstClearM4 :=
  of_code rfl (by decide)
theorem firstClearM5 : Statement .firstClearM5 :=
  of_code rfl (by decide)
theorem firstClearM6 : Statement .firstClearM6 :=
  of_code rfl (by decide)
theorem firstClearM7 : Statement .firstClearM7 :=
  of_code rfl (by decide)
theorem firstClearM8 : Statement .firstClearM8 :=
  of_code rfl (by decide)
theorem firstBad (code : Code) : Statement (.firstBad code) :=
  of_code rfl (by simp [row])
theorem clearM2 : Statement .clearM2 :=
  of_code rfl (by decide)
theorem clearM3 : Statement .clearM3 :=
  of_code rfl (by decide)
theorem clearM4 : Statement .clearM4 :=
  of_code rfl (by decide)
theorem clearM5 : Statement .clearM5 :=
  of_code rfl (by decide)
theorem clearM6 : Statement .clearM6 :=
  of_code rfl (by decide)
theorem clearM7 : Statement .clearM7 :=
  of_code rfl (by decide)
theorem clearM8 : Statement .clearM8 :=
  of_code rfl (by decide)
theorem endM2 : Statement .endM2 :=
  of_code rfl (by decide)
theorem endM3 : Statement .endM3 :=
  of_code rfl (by decide)
theorem endM4 : Statement .endM4 :=
  of_code rfl (by decide)
theorem endM5 : Statement .endM5 :=
  of_code rfl (by decide)
theorem endM6 : Statement .endM6 :=
  of_code rfl (by decide)
theorem endM7 : Statement .endM7 :=
  of_code rfl (by decide)
theorem endM8 : Statement .endM8 :=
  of_code rfl (by decide)
theorem litM2Noprev (root : BitVec 2) : Statement (.litM2Noprev root) :=
  of_root rfl (fun k => by decide +revert) rfl
theorem litM2 (root : BitVec 2) : Statement (.litM2 root) :=
  of_root rfl (fun k => by decide +revert) rfl
theorem litM2Full (root : BitVec 2) : Statement (.litM2Full root) :=
  of_root rfl (fun k => by decide +revert) rfl
theorem litM3Noprev (root : BitVec 3) : Statement (.litM3Noprev root) :=
  of_root rfl (fun k => by decide +revert) rfl
theorem litM3 (root : BitVec 3) : Statement (.litM3 root) :=
  of_root rfl (fun k => by decide +revert) rfl
theorem litM3Full (root : BitVec 3) : Statement (.litM3Full root) :=
  of_root rfl (fun k => by decide +revert) rfl
theorem litM4Noprev (root : BitVec 4) : Statement (.litM4Noprev root) :=
  of_root rfl (fun k => by decide +revert) rfl
theorem litM4 (root : BitVec 4) : Statement (.litM4 root) :=
  of_root rfl (fun k => by decide +revert) rfl
theorem litM4Full (root : BitVec 4) : Statement (.litM4Full root) :=
  of_root rfl (fun k => by decide +revert) rfl
theorem litM5Noprev (root : BitVec 5) : Statement (.litM5Noprev root) :=
  of_root rfl (fun k => by decide +revert) rfl
theorem litM5 (root : BitVec 5) : Statement (.litM5 root) :=
  of_root rfl (fun k => by decide +revert) rfl
theorem litM5Full (root : BitVec 5) : Statement (.litM5Full root) :=
  of_root rfl (fun k => by decide +revert) rfl
theorem litM6Noprev (root : BitVec 6) : Statement (.litM6Noprev root) :=
  of_root rfl (fun k => by decide +revert) rfl
theorem litM6 (root : BitVec 6) : Statement (.litM6 root) :=
  of_root rfl (fun k => by decide +revert) rfl
theorem litM6Full (root : BitVec 6) : Statement (.litM6Full root) :=
  of_root rfl (fun k => by decide +revert) rfl
theorem litM7Noprev (root : BitVec 7) : Statement (.litM7Noprev root) :=
  of_root rfl (fun k => by decide +revert) rfl
theorem litM7 (root : BitVec 7) : Statement (.litM7 root) :=
  of_root rfl (fun k => by decide +revert) rfl
theorem litM7Full (root : BitVec 7) : Statement (.litM7Full root) :=
  of_root rfl (fun k => by decide +revert) rfl
theorem litM8Noprev (root : BitVec 8) : Statement (.litM8Noprev root) :=
  of_root rfl (fun k => by decide +revert) rfl
theorem litM8 (root : BitVec 8) : Statement (.litM8 root) :=
  of_root rfl (fun k => by decide +revert) rfl
theorem litM8Full (root : BitVec 8) : Statement (.litM8Full root) :=
  of_root rfl (fun k => by decide +revert) rfl
theorem dictNoprev (code : Code) : Statement (.dictNoprev code) :=
  of_code rfl (by simp [row])
theorem dict (code : Code) : Statement (.dict code) :=
  of_code rfl (by simp [row])
theorem dictFull (code : Code) : Statement (.dictFull code) :=
  of_code rfl (by simp [row])
theorem kwkwk (code : Code) : Statement (.kwkwk code) :=
  of_code rfl (by simp [row])
theorem kwkwkNoprev (code : Code) : Statement (.kwkwkNoprev code) :=
  of_code rfl (by simp [row])
theorem beyond (code : Code) : Statement (.beyond code) :=
  of_code rfl (by simp [row])

end Sys2Proof.Laws.RowBits
end

