-- ==== Sys2Proof/Tests/Slice0.lean ====
section
/-! SUPPORT. Tests: ill-formed terms, words of the encoding tables, one step at a time from the vectors of spec/95_test_vectors.md, and
a witness for the hypotheses of each obligation. -/

namespace Sys2Proof.Tests

open Sys2Proof Sys2Proof.Machine

/-! ## Ill-formed terms -/

theorem test_wf_unmapped30 : ¬ WellFormed (.rdUnmapped30 0x40#8 0) ∧ ¬ WellFormed (.wrUnmapped30 0x31#8 0) := by decide
theorem test_wf_unmapped40 : ¬ WellFormed (.rdUnmapped40 0x80#8 0) ∧ ¬ WellFormed (.wrUnmapped40 0x42#8 0) := by decide
theorem test_wf_unmapped80 : ¬ WellFormed (.rdUnmapped80 0xC0#8 0) ∧ ¬ WellFormed (.wrUnmapped80 0x30#8 0) := by decide
theorem test_wf_refusedOff0 : ¬ WellFormed (.refusedOff0 32 0x00200000000#41) := by decide
theorem test_wf_refusedOff1 : ¬ WellFormed (.refusedOff1 0x00300000000#41) ∧ ¬ WellFormed (.refusedOff1 0#41) := by decide
theorem test_wf_dict : ¬ WellFormed (.dictNoprev 5#12) ∧ ¬ WellFormed (.dict 5#12) ∧ ¬ WellFormed (.dict 4095#12) ∧
    ¬ WellFormed (.dictFull 5#12) := by decide
theorem test_wf_kwkwk : ¬ WellFormed (.kwkwk 5#12) ∧ ¬ WellFormed (.kwkwkNoprev 5#12) := by decide
theorem test_wf_beyond : ¬ WellFormed (.beyond 6#12) := by decide

/-! ## Words of the encoding tables (30_encoding.md, opcode_table.json, 95_test_vectors.md L2.13) -/

/-- CTRL is at offset 0x00: bit 1 of the data is ABORT, bit 0 START. -/
theorem test_decode_ctrl :
    decodeHbus false 32 0x10000000001#41 = .start 0 ∧ decodeHbus false 32 0x10080000005#41 = .start 0x20000001#30 ∧
    decodeHbus true 32 0x10000000001#41 = .startBusy 0 ∧ decodeHbus false 32 0x10000000002#41 = .abort false 0 ∧
    decodeHbus true 32 0x10000000003#41 = .abort true 0 ∧ decodeHbus false 32 0x100FFFFFFFC#41 = .ctrlNop 0x3FFFFFFF#30 := by decide
theorem test_decode_writes :
    decodeHbus false 32 0x10400020002#41 = .wrConfig 0x20002#32 ∧ decodeHbus false 32 0x10800000002#41 = .wrInLen 2 ∧
    decodeHbus false 32 0x10CFFFFFFFF#41 = .wrStatus 0xFFFFFFFF#32 ∧ decodeHbus false 32 0x11000000001#41 = .wrCodeWidth 1 ∧
    decodeHbus false 32 0x11400000001#41 = .wrNextCode 1 ∧ decodeHbus false 32 0x11800000001#41 = .wrPrevCode 1 ∧
    decodeHbus false 32 0x11C00000001#41 = .wrByteIndex 1 ∧ decodeHbus false 32 0x12000000001#41 = .wrBitIndex 1 ∧
    decodeHbus false 32 0x12400000001#41 = .wrOutCountLo 1 ∧ decodeHbus false 32 0x12800000001#41 = .wrOutCountHi 1 ∧
    decodeHbus false 32 0x12C00000001#41 = .wrErrCode 1 := by decide
theorem test_decode_reads :
    decodeHbus false 32 0x00000000000#41 = .rdCtrl 0 ∧ decodeHbus false 32 0x00400000000#41 = .rdConfig 0 ∧
    decodeHbus false 32 0x00800000000#41 = .rdInLen 0 ∧ decodeHbus false 32 0x00C00000000#41 = .rdStatus 0 ∧
    decodeHbus false 32 0x01000000000#41 = .rdCodeWidth 0 ∧ decodeHbus false 32 0x01400000000#41 = .rdNextCode 0 ∧
    decodeHbus false 32 0x01800000000#41 = .rdPrevCode 0 ∧ decodeHbus false 32 0x01C00000000#41 = .rdByteIndex 0 ∧
    decodeHbus false 32 0x02000000000#41 = .rdBitIndex 0 ∧ decodeHbus false 32 0x02400000000#41 = .rdOutCountLo 0 ∧
    decodeHbus false 32 0x02800000000#41 = .rdOutCountHi 0 ∧ decodeHbus false 32 0x02C00000000#41 = .rdErrCode 0 := by decide
theorem test_decode_unmapped :
    decodeHbus false 32 0x03000000000#41 = .rdUnmapped30 0x30#8 0 ∧ decodeHbus false 32 0x03C00000000#41 = .rdUnmapped30 0x3C#8 0 ∧
    decodeHbus false 32 0x04000000000#41 = .rdUnmapped40 0x40#8 0 ∧ decodeHbus false 32 0x0FC00000000#41 = .rdUnmapped40 0xFC#8 0 ∧
    decodeHbus false 32 0x08000000000#41 = .rdUnmapped80 0x80#8 0 ∧ decodeHbus false 32 0x0BC00000000#41 = .rdUnmapped80 0xBC#8 0 ∧
    decodeHbus false 32 0x13000000001#41 = .wrUnmapped30 0x30#8 1 ∧ decodeHbus false 32 0x1C000000001#41 = .wrUnmapped40 0xC0#8 1 ∧
    decodeHbus false 32 0x18400000001#41 = .wrUnmapped80 0x84#8 1 := by decide
theorem test_decode_refused :
    decodeHbus false 32 0x00100000000#41 = .refusedOff0 32 0x00100000000#41 ∧
    decodeHbus false 32 0x10300000001#41 = .refusedOff0 32 0x10300000001#41 ∧
    decodeHbus false 16 0x10400000001#41 = .refusedOff0 16 0x10400000001#41 ∧
    decodeHbus false 32 0x00200000000#41 = .refusedOff1 0x00200000000#41 := by decide

/-- PHASE = FIRST: FIRST without the check, FIRST_CLEAR and FIRST_BAD with it (R84, R83). -/
theorem test_decode_first :
    decodeCode ⟨.first, false, .m2, false, 6⟩ 7#12 = .first 7#12 ∧ decodeCode ⟨.first, true, .m2, false, 6⟩ 5#12 = .firstBad 5#12 ∧
    decodeCode ⟨.first, true, .m2, false, 6⟩ 4#12 = .firstClearM2 ∧ decodeCode ⟨.first, true, .m3, false, 10⟩ 8#12 = .firstClearM3 ∧
    decodeCode ⟨.first, true, .m4, false, 18⟩ 16#12 = .firstClearM4 ∧ decodeCode ⟨.first, true, .m5, false, 34⟩ 32#12 = .firstClearM5 ∧
    decodeCode ⟨.first, true, .m6, false, 66⟩ 64#12 = .firstClearM6 ∧ decodeCode ⟨.first, true, .m7, false, 130⟩ 128#12 = .firstClearM7 ∧
    decodeCode ⟨.first, true, .m8, false, 258⟩ 256#12 = .firstClearM8 ∧ decode ⟨true, ⟨.loop, false, .m2, true, 6⟩⟩ .noCode = .eod := by
  decide
theorem test_decode_clear :
    decodeCode ⟨.loop, false, .m2, true, 7⟩ 4#12 = .clearM2 ∧ decodeCode ⟨.loop, true, .m3, true, 10⟩ 8#12 = .clearM3 ∧
    decodeCode ⟨.loop, false, .m4, true, 18⟩ 16#12 = .clearM4 ∧ decodeCode ⟨.loop, false, .m5, true, 34⟩ 32#12 = .clearM5 ∧
    decodeCode ⟨.loop, false, .m6, true, 66⟩ 64#12 = .clearM6 ∧ decodeCode ⟨.loop, false, .m7, true, 130⟩ 128#12 = .clearM7 ∧
    decodeCode ⟨.loop, false, .m8, true, 4096⟩ 256#12 = .clearM8 := by decide
theorem test_decode_end :
    decodeCode ⟨.loop, false, .m2, true, 7⟩ 5#12 = .endM2 ∧ decodeCode ⟨.loop, true, .m3, true, 10⟩ 9#12 = .endM3 ∧
    decodeCode ⟨.loop, false, .m4, true, 18⟩ 17#12 = .endM4 ∧ decodeCode ⟨.loop, false, .m5, true, 34⟩ 33#12 = .endM5 ∧
    decodeCode ⟨.loop, false, .m6, true, 66⟩ 65#12 = .endM6 ∧ decodeCode ⟨.loop, false, .m7, true, 130⟩ 129#12 = .endM7 ∧
    decodeCode ⟨.loop, false, .m8, true, 4096⟩ 257#12 = .endM8 := by decide
theorem test_decode_lit_noprev :
    decodeCode ⟨.loop, false, .m2, false, 6⟩ 3#12 = .litM2Noprev 3#2 ∧ decodeCode ⟨.loop, false, .m3, false, 10⟩ 7#12 = .litM3Noprev 7#3 ∧
    decodeCode ⟨.loop, false, .m4, false, 18⟩ 15#12 = .litM4Noprev 15#4 ∧ decodeCode ⟨.loop, false, .m5, false, 34⟩ 31#12 = .litM5Noprev 31#5 ∧
    decodeCode ⟨.loop, false, .m6, false, 66⟩ 63#12 = .litM6Noprev 63#6 ∧
    decodeCode ⟨.loop, false, .m7, false, 130⟩ 127#12 = .litM7Noprev 127#7 ∧
    decodeCode ⟨.loop, false, .m8, false, 258⟩ 255#12 = .litM8Noprev 255#8 := by decide
theorem test_decode_lit :
    decodeCode ⟨.loop, false, .m2, true, 6⟩ 1#12 = .litM2 1#2 ∧ decodeCode ⟨.loop, false, .m3, true, 10⟩ 5#12 = .litM3 5#3 ∧
    decodeCode ⟨.loop, false, .m4, true, 18⟩ 9#12 = .litM4 9#4 ∧ decodeCode ⟨.loop, false, .m5, true, 34⟩ 17#12 = .litM5 17#5 ∧
    decodeCode ⟨.loop, false, .m6, true, 66⟩ 33#12 = .litM6 33#6 ∧ decodeCode ⟨.loop, false, .m7, true, 130⟩ 65#12 = .litM7 65#7 ∧
    decodeCode ⟨.loop, false, .m8, true, 4095⟩ 129#12 = .litM8 129#8 := by decide
theorem test_decode_lit_full :
    decodeCode ⟨.loop, false, .m2, true, 4096⟩ 2#12 = .litM2Full 2#2 ∧ decodeCode ⟨.loop, false, .m3, true, 4096⟩ 6#12 = .litM3Full 6#3 ∧
    decodeCode ⟨.loop, false, .m4, true, 4096⟩ 14#12 = .litM4Full 14#4 ∧ decodeCode ⟨.loop, false, .m5, true, 4096⟩ 30#12 = .litM5Full 30#5 ∧
    decodeCode ⟨.loop, false, .m6, true, 4096⟩ 62#12 = .litM6Full 62#6 ∧
    decodeCode ⟨.loop, false, .m7, true, 4096⟩ 126#12 = .litM7Full 126#7 ∧
    decodeCode ⟨.loop, false, .m8, true, 4096⟩ 254#12 = .litM8Full 254#8 := by decide
/-- Codes from ROOT_SIZE + 2 on, at the values where the classes meet (R84). -/
theorem test_decode_dynamic :
    decodeCode ⟨.loop, false, .m2, false, 7⟩ 6#12 = .dictNoprev 6#12 ∧ decodeCode ⟨.loop, false, .m2, true, 7⟩ 6#12 = .dict 6#12 ∧
    decodeCode ⟨.loop, false, .m2, true, 4095⟩ 4094#12 = .dict 4094#12 ∧
    decodeCode ⟨.loop, false, .m2, true, 4096⟩ 4095#12 = .dictFull 4095#12 ∧ decodeCode ⟨.loop, false, .m2, true, 6⟩ 6#12 = .kwkwk 6#12 ∧
    decodeCode ⟨.loop, false, .m2, true, 4095⟩ 4095#12 = .kwkwk 4095#12 ∧
    decodeCode ⟨.loop, false, .m2, false, 6⟩ 6#12 = .kwkwkNoprev 6#12 ∧ decodeCode ⟨.loop, false, .m2, false, 6⟩ 7#12 = .beyond 7#12 ∧
    decodeCode ⟨.loop, false, .m2, true, 8⟩ 9#12 = .beyond 9#12 := by decide
/-- Words of the table on their own (log 2). -/
theorem test_decode_table_word :
    decodeTableWord 48 0x10400020002 = some (.wrConfig 0x20002#32) ∧ decodeTableWord 16 0x100 = some .clearM8 ∧
    decodeTableWord 16 0x1000 = none ∧ decodeTableWord 48 0x20000000000 = none ∧ decodeTableWord 64 0 = none ∧
    decodeTableWord 0 0 = some .eod := by decide

/-! ## Small states -/

/-- The step goes on, to a state with the property. -/
def ends (r : Result) (p : State → Bool) : Bool :=
  match r with
  | .next t => p t
  | _ => false

theorem exists_of_ends {r : Result} {p : State → Bool} (h : ends r p = true) : ∃ t, r = .next t ∧ p t = true := by
  cases r with
  | next t => exact ⟨t, rfl, h⟩
  | fault => cases h
  | refused => cases h

/-- A running decode at m = 2, at the start of the bytes, with the table of `CLEAR, 0, 0, …` up to NEXT_CODE; PREV is 0. -/
def decoding (next : Nat) (prevValid : Bool) (phase : Phase) (bytes : Memory) (len : Nat) : State :=
  { State.reset with
    blk := { Block.reset (zerosTable 4 next) with
      config := 2, inLen := BitVec.ofNat 32 len, state := .busy, codeWidth := BitVec.ofNat 4 (min 12 (bitLen next))
      nextCode := BitVec.ofNat 13 next, prevValid := prevValid, phase := phase }
    input := bytes }

/-- The same with the cursor elsewhere in byte 0. -/
def atBit (k : BitVec 3) (s : State) : State := { s with blk := { s.blk with bitIndex := k } }
/-- The same with CONFIG.FIRST_CHECK set. -/
def checked (s : State) : State := { s with blk := { s.blk with config := s.blk.config ||| 0x100#32 } }
/-- The block in a state of rest: DONE or ERROR, say, after a decode at m = 2. -/
def resting (st : RunState) : State := { State.reset with blk := { State.reset.blk with state := st, config := 0x302#32, inLen := 2 } }
/-- The host's next transaction. -/
def host (w : HbusWord) (s : State) : Result := step { s with pending := [.host 32 w] }

theorem decoding_inv {next : Nat} {prevValid : Bool} {phase : Phase} {bytes : Memory} {len : Nat} (h6 : 6 ≤ next) (hn : next ≤ 4096)
    (hv : prevValid = false → next = 6) (hp : phase = .first → prevValid = false) (hb : Memory.wf bytes) :
    (decoding next prevValid phase bytes len).Inv := by
  have hnext : (decoding next prevValid phase bytes len).blk.nextCode.toNat = next := by
    show (BitVec.ofNat 13 next).toNat = next
    rw [BitVec.toNat_ofNat]; omega
  have hroot : rootSizeOf (decoding next prevValid phase bytes len).blk = 4 := rfl
  have hcur : cursor (decoding next prevValid phase bytes len).blk = 0 := rfl
  refine ⟨hb, List.Pairwise.nil, fun _ => ⟨(by decide : (2 : Word) &&& configMask = 2), ?_, fun _ => ⟨rfl, rfl, rfl⟩, fun _ => rfl, ?_⟩, fun _ _ => ⟨?_, ?_, ?_, ?_, ?_, ?_, ?_, ?_, ?_, ?_⟩⟩
  · intro h; cases h
  · intro h; cases h
  · exact ⟨Nat.le_refl 2, (by decide : (2 : Nat) ≤ 8)⟩
  · rw [hnext, hroot]; exact ⟨h6, hn⟩
  · rw [hnext]; show (BitVec.ofNat 4 (min 12 (bitLen next))).toNat = _
    rw [BitVec.toNat_ofNat]; omega
  · rw [hcur]; exact Nat.zero_le _
  · rw [hroot, hnext]; exact tableOk_zerosTable (by decide) next
  · intro _; rw [hnext]
    exact ⟨by show 0 < next; omega, _, _, (tableOk_zerosTable (by decide : 0 < 4) next).roots 0 (by decide)⟩
  · intro h; rw [hnext, hroot]; exact hv h
  · intro h; exact ⟨hp h, rfl, rfl⟩
  · exact Nat.zero_le _
  · intro x hx; cases hx

/-! ## The bit reader (95_test_vectors.md L1.1, L2.1) -/

/-- ReadBits(n) from bit k of the first byte, with the cursor after it. -/
def reading (bytes : Memory) (k : BitVec 3) (n : Nat) : Nat × Word × BitVec 3 :=
  let r := readBits n (atBit k { State.reset with input := bytes })
  (r.1, r.2.blk.byteIndex, r.2.blk.bitIndex)

theorem test_readBits_within_bytes :
    reading [(0, 0xB2), (1, 0x5C)] 0 3 = (2, 0, 3) ∧ reading [(0, 0xB2)] 0 8 = (178, 1, 0) ∧ reading [(0, 0xB2)] 3 5 = (22, 1, 0) ∧
    reading [(0, 0x80)] 7 1 = (1, 1, 0) := by decide
theorem test_readBits_across_bytes :
    reading [(0, 0xB2), (1, 0x5C)] 3 7 = (22, 1, 2) ∧ reading [(0, 0xB2), (1, 0x5C)] 0 12 = (3250, 1, 4) ∧
    reading [(0, 0xB2), (1, 0x5C)] 4 12 = (1483, 2, 0) ∧ reading [(0, 0xFF), (2, 0xFF)] 6 12 = (3075, 2, 2) := by decide
theorem test_avail :
    avail { State.reset.blk with inLen := 2, byteIndex := 1, bitIndex := 4 } = 4 ∧ avail State.reset.blk = 0 ∧
    avail { State.reset.blk with inLen := 1, byteIndex := 1 } = 0 := by decide

/-! ## Host transactions (L2.2, L2.13) -/

theorem test_config_masks : ends (host 0x104FFFFFFFF#41 State.reset) (fun t => t.blk.config == 0x01FF03FF#32) = true := by decide
theorem test_config_busy :
    ends (host 0x10400000003#41 (decoding 6 false .loop [] 1)) (fun t => t.blk.config == 2 && t.blk.state == .busy) = true := by decide
theorem test_in_len :
    ends (host 0x108FFFFFFFF#41 State.reset) (fun t => t.blk.inLen == 0xFFFFFFFF#32) = true ∧
    ends (host 0x10800000007#41 (decoding 6 false .loop [] 1)) (fun t => t.blk.inLen == 1) = true := by decide

/-- NEXT_CODE and CODE_WIDTH after START, by CONFIG. -/
def started (config : Word) : Option (BitVec 13 × BitVec 4) :=
  match host 0x10000000001#41 { State.reset with blk := { State.reset.blk with config := config } } with
  | .next t => if t.blk.state = .busy then some (t.blk.nextCode, t.blk.codeWidth) else none
  | _ => none

theorem test_start_constants :
    started 0x102#32 = some (6, 3) ∧ started 0x103#32 = some (10, 4) ∧ started 0x104#32 = some (18, 5) ∧ started 0x105#32 = some (34, 6) ∧
    started 0x106#32 = some (66, 7) ∧ started 0x107#32 = some (130, 8) ∧ started 0x108#32 = some (258, 9) := by decide
theorem test_start_table :
    ends (host 0x10000000001#41 { State.reset with blk := { State.reset.blk with config := 2 } }) (fun t =>
      entryAt t.blk.table 3 == .seq 3 [] && entryAt t.blk.table 4 == .clear && entryAt t.blk.table 5 == .endMark &&
      entryAt t.blk.table 6 == .absent) = true := by decide
/-- START with this CONFIG is rejected: STATUS 0x00030503 and every other result register 0. -/
def rejects (config : Word) : Bool :=
  ends (host 0x10000000001#41 { resting .done with blk := { (resting .done).blk with config := config } }) fun t =>
    statusWord t.blk == 0x30503#32 && t.blk.nextCode == 0 && t.blk.codeWidth == 0 && t.blk.errCode == 0

theorem test_start_rejected : (rejects 0 && rejects 1 && rejects 9 && rejects 0xFF#32) = true := by decide
theorem test_start_keeps_accepted :
    ends (host 0x10000000001#41 { resting .done with out := [7], sinkPast := [1] }) (fun t => t.out == [] && t.sinkPast == [1, 7]) = true := by
  decide
theorem test_start_busy :
    ends (host 0x10000000001#41 (atBit 3 (decoding 7 true .loop [] 1))) (fun t => t.blk.bitIndex == 3 && t.blk.nextCode == 7) = true := by decide
theorem test_abort :
    ends (host 0x10000000003#41 (atBit 3 (decoding 7 true .loop [] 1))) (fun t =>
      t.blk.state == .idle && t.blk.nextCode == 0 && !t.blk.prevValid && t.blk.bitIndex == 0 && t.blk.config == 2 && t.blk.inLen == 1) = true ∧
    ends (host 0x10000000002#41 (resting .error)) (fun t => statusWord t.blk == 0 && !irq t.blk) = true := by decide
theorem test_ignored_writes :
    ends (host 0x10CFFFFFFFF#41 (resting .done)) (fun t => statusWord t.blk == 2) = true ∧
    ends (host 0x13000000001#41 (resting .done)) (fun t => statusWord t.blk == 2) = true ∧
    ends (host 0x100FFFFFFFC#41 (resting .done)) (fun t => statusWord t.blk == 2) = true := by decide
/-- STATUS 0x00060303 and PREV_CODE 0x80000000 (L1.6, P1). -/
theorem test_read_layouts :
    statusWord { State.reset.blk with state := .error, errKind := .unexpectedEndOfData, errDetail := 6 } = 0x60303#32 ∧
    prevCodeWord { State.reset.blk with prevValid := true } = 0x80000000#32 ∧
    prevCodeWord { State.reset.blk with prev := 1 } = 1 := by decide
theorem test_read_config : ends (host 0x00400000000#41 (resting .done)) (fun t => t.rdata == 0x302#32) = true := by decide
theorem test_read_status_busy : ends (host 0x00C00000000#41 (decoding 6 false .loop [] 1)) (fun t => t.rdata == 1) = true := by decide
theorem test_read_next_code :
    ends (host 0x01400000000#41 { resting .done with blk := { (resting .done).blk with nextCode := 4096 } })
      (fun t => t.rdata == 0x1000#32) = true := by decide
theorem test_read_out_count :
    ends (host 0x02800000000#41 { resting .done with blk := { (resting .done).blk with outCount := 0x500000003#64 } })
      (fun t => t.rdata == 5) = true := by decide
theorem test_read_unmapped : ends (host 0x0FC00000000#41 { resting .done with rdata := 9 }) (fun t => t.rdata == 0) = true := by decide
theorem test_refused : ends (host 0x00200000000#41 (resting .done)) (fun t => t.refusalMark && t.input == []) = true := by decide
theorem test_irq :
    irq (resting .done).blk = true ∧ irq (resting .error).blk = true ∧ irq (resting .busy).blk = false ∧ irq (resting .idle).blk = false := by
  decide

/-! ## Code steps (L1.3 to L1.6, L2.3 to L2.11) -/

/-- L1.4 step 1: the first code is discarded, three bits on. -/
theorem test_first :
    ends (step (decoding 6 false .first [(0, 0x44), (1, 0x50)] 2)) (fun t =>
      t.blk.phase == .loop && t.blk.bitIndex == 3 && t.out == [] && t.blk.nextCode == 6) = true := by decide
theorem test_first_clear :
    ends (step (checked (decoding 6 false .first [(0, 0x44), (1, 0x50)] 2))) (fun t =>
      t.blk.phase == .loop && t.blk.bitIndex == 3) = true := by decide
/-- L2.3: a first code 0 with the check on. -/
theorem test_first_bad :
    ends (step (checked (decoding 6 false .first [(0, 0x48), (1, 0x01)] 2))) (fun t =>
      statusWord t.blk == 0x10503#32 && t.blk.errCode == 0 && t.blk.bitIndex == 0 && t.out == []) = true := by decide
/-- L2.4: CLEAR at P = 9 in [44 58] puts NEXT_CODE back to 6 and keeps the stale PREV. -/
theorem test_clear :
    ends (step { decoding 7 true .loop [(0, 0x44), (1, 0x58)] 2 with
        blk := { (decoding 7 true .loop [] 2).blk with byteIndex := 1, bitIndex := 1, prev := 1 } }) (fun t =>
      t.blk.nextCode == 6 && t.blk.codeWidth == 3 && !t.blk.prevValid && t.blk.prev == 1 && t.blk.bitIndex == 4 &&
      entryAt t.blk.table 6 == .absent) = true := by decide
/-- L2.5: END at P = 3 in [2C]. -/
theorem test_end :
    ends (step (atBit 3 (decoding 6 false .loop [(0, 0x2C)] 1))) (fun t =>
      t.blk.state == .done && t.blk.bitIndex == 6 && t.blk.nextCode == 6) = true := by decide
/-- L1.3 step 2. -/
theorem test_lit_noprev :
    ends (step (atBit 3 (decoding 6 false .loop [(0, 0x44), (1, 0x7C), (2, 0x59)] 3))) (fun t =>
      t.out == [0] && t.blk.nextCode == 6 && t.blk.prevValid && t.blk.outCount == 1 && t.blk.bitIndex == 6) = true := by decide
/-- L1.3 step 3: 1 is emitted and T6 = [0, 1] registered. -/
theorem test_lit :
    ends (step (atBit 6 (decoding 6 true .loop [(0, 0x44), (1, 0x7C), (2, 0x59)] 3))) (fun t =>
      t.out == [1] && t.blk.nextCode == 7 && t.blk.codeWidth == 3 && t.blk.prev == 1 && t.blk.byteIndex == 1 && t.blk.bitIndex == 1 &&
      entryAt t.blk.table 6 == .seq 0 [1]) = true := by decide
/-- L2.11: a present code on a full table raises (5, 2, c), here c = 0. -/
theorem test_lit_full :
    ends (step (decoding 4096 true .loop [] 2)) (fun t =>
      statusWord t.blk == 0x20503#32 && t.blk.errCode == 0 && t.out == [] && t.blk.nextCode == 4096) = true := by decide
/-- Code 6 = [0, 0] at P = 0 after PREV = 0: T7 = [0, 0], NEXT_CODE 8, width 4 (R133, R142). -/
theorem test_dict_grows :
    ends (step (decoding 7 true .loop [(0, 6)] 1)) (fun t =>
      t.out == [0, 0] && t.blk.nextCode == 8 && t.blk.codeWidth == 4 && t.blk.prev == 6 && entryAt t.blk.table 7 == .seq 0 [0]) = true := by
  decide
/-- L2.10: the last registration leaves the width at 12. -/
theorem test_width_stays :
    ends (step (decoding 4095 true .loop [] 2)) (fun t => t.blk.nextCode == 4096 && t.blk.codeWidth == 12) = true := by decide
/-- L2.7: code 6 = NEXT_CODE at P = 6 in [84 0B] emits and registers [0, 0]. -/
theorem test_kwkwk :
    ends (step (atBit 6 (decoding 6 true .loop [(0, 0x84), (1, 0x0B)] 2))) (fun t =>
      t.out == [0, 0] && t.blk.nextCode == 7 && t.blk.prev == 6 && t.blk.outCount == 2 && entryAt t.blk.table 6 == .seq 0 [0]) = true := by
  decide
/-- L2.7: code 6 at P = 3 in [34] with no previous code. -/
theorem test_kwkwk_noprev :
    ends (step (atBit 3 (decoding 6 false .loop [(0, 0x34)] 1))) (fun t =>
      statusWord t.blk == 0x50603#32 && t.blk.errCode == 6 && t.blk.bitIndex == 3 && t.blk.nextCode == 6) = true := by decide
/-- L2.8: code 7 at P = 3 in [3C]. -/
theorem test_beyond :
    ends (step (atBit 3 (decoding 6 false .loop [(0, 0x3C)] 1))) (fun t =>
      statusWord t.blk == 0x40603#32 && t.blk.errCode == 7 && t.blk.bitIndex == 3) = true := by decide
/-- L1.6 and L2.9: no bit left, and two bits left of three. -/
theorem test_eod :
    ends (step (decoding 6 false .first [] 0)) (fun t => statusWord t.blk == 0x60303#32 && t.blk.codeWidth == 3) = true ∧
    ends (step (atBit 6 (decoding 6 true .loop [(0, 0x04)] 1))) (fun t => statusWord t.blk == 0x70303#32 && t.blk.bitIndex == 6) = true := by
  decide
/-- R196: while the sink does not accept, the step has not begun. -/
theorem test_sink_holds :
    ends (step { atBit 6 (decoding 6 true .loop [(0, 0x44), (1, 0x7C)] 2) with sinkAccepts := false }) (fun t =>
      t.out == [] && t.blk.bitIndex == 6 && t.blk.nextCode == 6 && t.draws == 1) = true := by decide
/-- R66: a byte below IN_LEN changed while BUSY joins the changed ones; at IN_LEN it does not, nor outside BUSY. -/
theorem test_place :
    ends (step { decoding 6 true .loop [] 2 with pending := [.place 1 5] }) (fun t => t.changed == [1] && t.input == [(1, 5)]) = true ∧
    ends (step { decoding 6 true .loop [] 2 with pending := [.place 2 5] }) (fun t => t.changed == []) = true ∧
    ends (step { resting .done with pending := [.place 1 5] }) (fun t => t.changed == []) = true := by decide
/-- A root of every other minimum code size, placed as the table's word: it is emitted whole (R83, R142). -/
theorem test_lit_m3_m4 :
    ends (step (State.reset.withFetchWord 16 6)) (fun t => t.out == [6] && t.blk.nextCode == 11) = true ∧
    ends (step (State.reset.withFetchWord 16 10)) (fun t => t.out == [10] && t.blk.nextCode == 19) = true := by decide
theorem test_lit_m5_m6 :
    ends (step (State.reset.withFetchWord 16 18)) (fun t => t.out == [18] && t.blk.nextCode == 35) = true ∧
    ends (step (State.reset.withFetchWord 16 34)) (fun t => t.out == [34] && t.blk.nextCode == 67) = true := by decide
theorem test_lit_m7_m8 :
    ends (step (State.reset.withFetchWord 16 66)) (fun t => t.out == [66] && t.blk.nextCode == 131) = true ∧
    ends (step (State.reset.withFetchWord 16 130)) (fun t => t.out == [130] && t.blk.nextCode == 259) = true := by decide
theorem test_clear_end_m8 :
    ends (step (State.reset.withFetchWord 16 0x100)) (fun t => t.blk.nextCode == 258 && t.blk.codeWidth == 9 && !t.blk.prevValid) = true ∧
    ends (step (State.reset.withFetchWord 16 0x101)) (fun t => t.blk.state == .done && t.blk.bitIndex == 1) = true := by decide
theorem test_eod_word : ends (step (State.reset.withFetchWord 0 0)) (fun t => statusWord t.blk == 0x60303#32) = true := by decide

/-! ## Witnesses for the obligations' hypotheses -/

/-- A running decode with no previous code. -/
abbrev fresh : State := decoding 6 false .loop [(0, 1)] 1
/-- A running decode with a previous code and one dynamic entry. -/
abbrev going : State := decoding 7 true .loop [(0, 1)] 1

theorem fresh_inv : fresh.Inv := decoding_inv (by decide) (by decide) (fun _ => rfl) (fun h => by cases h) (by decide)
theorem going_inv : going.Inv := decoding_inv (by decide) (by decide) (fun h => by cases h) (fun h => by cases h) (by decide)

/-- The step of a running decode goes on, to a state with the property. -/
theorem step_of_ends {s : State} {p : State → Bool} (h : ends (step s) p = true) : ∃ t, step s = .next t ∧ p t = true := exists_of_ends h
theorem engine_of_ends {s : State} {p : State → Bool} (h : ends (engineTurn s) p = true) : ∃ t, engineTurn s = .next t ∧ p t = true :=
  exists_of_ends h

theorem witness_ResetStopsTheDecode : ∃ (s : State) (es : List Event), s.pending = .rst :: es :=
  ⟨{ going with pending := [.rst, .engine] }, [.engine], rfl⟩
theorem witness_StepKeepsInvariant : ∃ s t : State, s.Inv ∧ step s = .next t :=
  let ⟨t, h, _⟩ := step_of_ends (s := going) (p := fun _ => true) (by decide)
  ⟨going, t, going_inv, h⟩
theorem witness_StepNeverStops : ∃ s : State, s.Inv ∧ s.refusalMark = false := ⟨fresh, fresh_inv, rfl⟩
theorem witness_DecodeOfEncode : ∃ (x : Ctx) (i : Instr), rootSize x.codes.minCode + 2 ≤ x.codes.nextCode ∧ x.codes.nextCode ≤ 4096 ∧
    WellFormed i ∧ x.admits i = true := ⟨⟨true, ⟨.loop, false, .m2, true, 4095⟩⟩, .dict 4094#12, by decide⟩
theorem witness_EncodeOfDecode : ∃ x : Ctx, rootSize x.codes.minCode + 2 ≤ x.codes.nextCode ∧ x.codes.nextCode ≤ 4096 :=
  ⟨⟨true, ⟨.loop, false, .m8, true, 4096⟩⟩, by decide⟩
/-- Each class at the code where it begins or ends (R84). -/
theorem witness_LoopClassesPartitionTheCodes :
    let x : CodeCtx := ⟨.loop, false, .m2, true, 8⟩
    (x.phase = .loop ∧ rootSize x.minCode + 2 ≤ x.nextCode) ∧
    classOf (decodeCode x 3) = some .lit ∧ classOf (decodeCode x 4) = some .clear ∧ classOf (decodeCode x 5) = some .endMark ∧
    classOf (decodeCode x 6) = some .dict ∧ classOf (decodeCode x 7) = some .dict ∧ classOf (decodeCode x 8) = some .kwkwk ∧
    classOf (decodeCode x 9) = some .beyond := by decide
theorem witness_StepRunsTheHostTransaction : ∃ (s : State) (es : List Event) (bits : Nat) (w : HbusWord) (x : CodeCtx) (i : Instr),
    s.pending = .host bits w :: es ∧ encode i = .hbus bits w ∧ WellFormed i ∧ (Ctx.mk (isBusy s.blk) x).admits i = true :=
  ⟨{ going with pending := [.host 32 0x10000000001#41] }, [], 32, 0x10000000001#41, ⟨.loop, false, .m2, true, 7⟩, .startBusy 0,
    rfl, by decide, rfl, rfl⟩
theorem witness_StepRunsTheCodeAtTheCursor : ∃ (s u : State) (es : List Event) (x : CodeCtx),
    s.pending = .engine :: es ∧ s.blk.state = .busy ∧ codeCtx s.blk = some x ∧ avail s.blk ≥ s.blk.codeWidth.toNat ∧
    u.pending = [] ∧ u.blk.state = .busy ∧ codeCtx u.blk = some x ∧ avail u.blk < u.blk.codeWidth.toNat :=
  ⟨{ going with pending := [.engine, .rst] }, atBit 6 going, [.rst], ⟨.loop, false, .m2, true, 7⟩, rfl, rfl, rfl, by decide, rfl, rfl, rfl,
    by decide⟩
theorem witness_EngineRestsOutsideBusy : ∃ (s u : State) (es : List Event),
    s.pending = .engine :: es ∧ s.blk.state ≠ .busy ∧ u.pending = [] ∧ u.blk.state ≠ .busy :=
  ⟨{ resting .done with pending := [.engine] }, resting .idle, [], rfl, by decide, rfl, by decide⟩
theorem witness_TableWordRunsAfterReset :
    decodeTableWord 48 0x10400000007 = some (.wrConfig 7) ∧ decodeTableWord 16 4095 = some (.kwkwk 4095#12) ∧ decodeTableWord 0 0 = some .eod := by
  decide
/-- The bits read end at the last bit of IN, and the byte before them is a changed one. -/
theorem witness_ReadBitsClosedForm : ∃ (s : State) (n : Nat), 0 < n ∧ cursor s.blk + n = 8 * s.blk.inLen.toNat ∧ s.changed ≠ [] ∧
    ∀ a ∈ s.changed, 8 * a + 8 ≤ cursor s.blk ∨ cursor s.blk + n ≤ 8 * a :=
  ⟨{ going with blk := { going.blk with inLen := 2, byteIndex := 1 }, changed := [0] }, 8, by decide, by decide, by decide, by decide⟩
theorem witness_CodeBitsAreStreamBits : ∃ s : State, s.blk.codeWidth.toNat ≤ 12 ∧ s.blk.codeWidth.toNat = avail s.blk ∧ s.changed ≠ [] ∧
    ∀ a ∈ s.changed, 8 * a + 8 ≤ cursor s.blk ∨ cursor s.blk + s.blk.codeWidth.toNat ≤ 8 * a :=
  ⟨{ atBit 5 going with changed := [1] }, by decide, by decide, by decide, by decide⟩
theorem witness_MemReadIsExactOrADraw : ∃ (s : State) (a b : Nat), a ∉ s.changed ∧ b ∈ s.changed :=
  ⟨{ going with changed := [3] }, 2, 3, by decide, by decide⟩
theorem witness_ChangingInputWhileBusyMakesDraws :
    (∃ (s : State) (es : List Event) (a : Word) (v : Byte), s.pending = .place a v :: es ∧ s.blk.state = .busy ∧
      a.toNat + 1 = s.blk.inLen.toNat ∧ Memory.read s.input a.toNat ≠ v) ∧
    ∃ (s : State) (es : List Event) (a : Word) (v : Byte), s.pending = .place a v :: es ∧ s.blk.state = .busy ∧
      s.blk.inLen.toNat = a.toNat ∧ Memory.read s.input a.toNat ≠ v :=
  ⟨⟨{ going with pending := [.place 0 2] }, [], 0, 2, rfl, rfl, by decide, by decide⟩,
    { going with pending := [.place 1 2] }, [], 1, 2, rfl, rfl, by decide, by decide⟩
theorem witness_StoredInputByteReadsBack : ∃ (s : State) (es : List Event) (a : Word) (v : Byte),
    Memory.wf s.input ∧ s.pending = .place a v :: es ∧ v = unlistedByte ∧ Memory.read s.input a.toNat ≠ v :=
  ⟨{ going with pending := [.place 0 0] }, [], 0, 0, by decide, rfl, rfl, by decide⟩
theorem witness_BytesBeyondInLenDoNotMatter : ∃ (s : State) (a : Nat), s.blk.inLen.toNat ≤ a ∧ s.blk.state = .busy := ⟨going, 1, by decide, rfl⟩
theorem witness_CtSizeAndIrqEnDoNotMatter : ∃ (s : State) (c : Word), c.extractLsb' 0 9 = s.blk.config.extractLsb' 0 9 ∧
    c ≠ s.blk.config ∧ s.blk.state = .busy := ⟨going, 0x01FF0202#32, by decide, by decide, rfl⟩
theorem witness_StartBeginsADecode : ∃ s u : State, (2 ≤ minCodeSize s.blk ∧ minCodeSize s.blk ≤ 8) ∧ minCodeSize s.blk = 2 ∧
    (2 ≤ minCodeSize u.blk ∧ minCodeSize u.blk ≤ 8) ∧ minCodeSize u.blk = 8 :=
  ⟨resting .done, { resting .done with blk := { (resting .done).blk with config := 8 } }, by decide, by decide, by decide, by decide⟩
theorem witness_StartRejectsABadMinCodeSize : ∃ s u : State, minCodeSize s.blk = 1 ∧ minCodeSize u.blk = 9 :=
  ⟨{ resting .done with blk := { (resting .done).blk with config := 1 } }, { resting .done with blk := { (resting .done).blk with config := 9 } },
    by decide, by decide⟩
theorem witness_IgnoredWritesChangeNothing : ∃ i j : Instr, ignoredWrite i = true ∧ ignoredWrite j = true ∧ i ≠ j :=
  ⟨.startBusy 0, .wrUnmapped80 0x80#8 1, rfl, rfl, by decide⟩
theorem witness_WriteConfigStoresOutsideBusy : ∃ s u : State, s.blk.state ≠ .busy ∧ u.blk.state = .busy :=
  ⟨resting .done, going, by decide, rfl⟩
theorem witness_ReadsReturnTheRegister : ∃ (s u : State) (i j : Instr) (v : Word),
    (s.blk.state = .busy ∧ exactRead i s.blk = some v) ∧ (u.blk.state ≠ .busy ∧ resultRead j u.blk = some 0) ∧
    s.blk.state = .busy ∧ (resultRead j s.blk).isSome = true :=
  ⟨going, resting .done, .rdStatus 0, .rdNextCode 0, 1, ⟨rfl, by decide⟩, ⟨by decide, by decide⟩, rfl, rfl⟩
theorem witness_ReadsHaveNoSideEffect : ∃ (s t : State) (i : Instr), isRead i = true ∧ exec i s = .next t := ⟨going, _, .rdStatus 0, rfl, rfl⟩
theorem witness_RefusedTransactionSetsTheMark : isRefused (.refusedOff0 16 0#41) = true ∧ isRefused (.refusedOff1 0x00200000000#41) = true := by
  decide
theorem witness_RefusalMarkPersists :
    (∃ s t : State, step s = .next t ∧ s.refusalMark = true) ∧
    ∃ s t : State, step s = .next t ∧ s.refusalMark = false ∧ t.refusalMark = true :=
  ⟨⟨{ resting .done with refusalMark := true }, _, engineTurn_of_not_busy (by decide), rfl⟩,
    { resting .done with pending := [.host 32 0x00200000000#41] }, refuse (resting .done), rfl, rfl, rfl⟩
theorem witness_AcceptedFirstCodeEntersLoop : firstAccepted (.first 7) = true ∧ firstAccepted .firstClearM8 = true ∧
    firstAccepted (.firstBad 7) = false := by decide
theorem witness_AdvancesOverCode : ∃ s : State, s.blk.codeWidth.toNat = avail s.blk := ⟨atBit 5 going, by decide⟩
theorem witness_ClearResetsTheTable : ∃ (s : State) (i : Instr), isClear i = true ∧ 2 ≤ minCodeSize s.blk ∧ minCodeSize s.blk ≤ 8 :=
  ⟨going, .clearM2, rfl, by decide, by decide⟩
theorem witness_EndCompletesTheDecode : isEnd .endM2 = true ∧ isEnd .endM8 = true := by decide
theorem witness_PresentCodeWithoutPreviousEmits : ∃ (s : State) (i : Instr) (c : Code) (x : Index) (xs : List Index),
    noPrevCode i = some c ∧ s.sinkAccepts = true ∧ entryAt s.blk.table c = .seq x xs := ⟨fresh, .litM2Noprev 3#2, 3, 3, [], rfl, rfl, by decide⟩
/-- A dynamic code, at the last registration. -/
theorem witness_PresentCodeRegisters : ∃ (s : State) (i : Instr) (c : Code) (x p : Index) (xs ps : List Index),
    registerCode i = some c ∧ s.sinkAccepts = true ∧ s.blk.nextCode.toNat = 4095 ∧ s.blk.nextCode.toNat < 4096 ∧
    entryAt s.blk.table c = .seq x xs ∧ entryAt s.blk.table s.blk.prev = .seq p ps :=
  ⟨decoding 4095 true .loop [] 2, .dict 6, 6, 0, 0, [0], [], rfl, rfl, by decide, by decide, by decide, by decide⟩
theorem witness_KwkwkEmitsAndRegisters : ∃ (s : State) (c : Code) (p : Index) (ps : List Index),
    s.sinkAccepts = true ∧ c.toNat = s.blk.nextCode.toNat ∧ entryAt s.blk.table s.blk.prev = .seq p ps :=
  ⟨going, 7, 0, [], rfl, by decide, by decide⟩
theorem witness_CodeErrorsEnterError :
    codeError (.firstBad 5) = some (.protocolError, 1, 5) ∧ codeError (.litM3Full 2#3) = some (.protocolError, 2, 2) ∧
    codeError (.dictFull 300) = some (.protocolError, 2, 300) ∧ codeError (.kwkwkNoprev 6) = some (.corruptedStream, 5, 6) ∧
    codeError (.beyond 9) = some (.corruptedStream, 4, 9) ∧ firstAccepted .firstClearM2 = true := by decide
theorem witness_SinkHoldsTheStep :
    (∃ (s : State) (i : Instr) (c : Code) (x : Index) (xs : List Index), s.sinkAccepts = false ∧ noPrevCode i = some c ∧
      entryAt s.blk.table c = .seq x xs ∧ entryAt s.blk.table s.blk.prev = .absent) ∧
    ∃ (s : State) (x p : Index) (xs ps : List Index) (i : Instr) (c : Code),
      s.sinkAccepts = false ∧ entryAt s.blk.table s.blk.prev = .seq p ps ∧ registerCode i = some c ∧ entryAt s.blk.table c = .seq x xs :=
  ⟨⟨{ fresh with sinkAccepts := false, blk := { fresh.blk with prev := 6 } }, .litM2Noprev 3#2, 3, 3, [], rfl, rfl, by decide, by decide⟩,
    { going with sinkAccepts := false }, 3, 0, [], [], .litM2 3#2, 3, rfl, by decide, rfl, by decide⟩
theorem witness_ErrorsArePrecise : ∃ s t : State, s.blk.state = .busy ∧ engineTurn s = .next t ∧ t.blk.state = .error :=
  let ⟨t, h, h'⟩ := engine_of_ends (s := atBit 6 going) (p := fun t => t.blk.state == .error) (by decide)
  ⟨atBit 6 going, t, rfl, h, eq_of_beq h'⟩
theorem witness_ErrorAndDoneAbsorb :
    (∃ s t : State, s.blk.state = .error ∧ step s = .next t ∧ t.refusalMark = false ∧
      (∀ es, s.pending ≠ .rst :: es) ∧ ∀ bits w es, s.pending = .host bits w :: es → hbusWe w = false) ∧
    ∃ s t : State, s.blk.state = .done ∧ step s = .next t ∧ t.refusalMark = false ∧ t.blk.state ≠ s.blk.state :=
  ⟨⟨resting .error, _, rfl, engineTurn_of_not_busy (by decide), rfl, by simp [resting, State.reset], by simp [resting, State.reset]⟩,
    { resting .done with pending := [.rst] }, _, rfl, step_rst (es := []) rfl, rfl, by decide⟩
theorem witness_DoneOnlyThroughEnd : ∃ s t : State, s.blk.state ≠ .done ∧ step s = .next t ∧ t.refusalMark = false ∧ t.blk.state = .done :=
  let ⟨t, h, h'⟩ := step_of_ends (s := decoding 6 false .loop [(0, 5)] 1) (p := fun t => !t.refusalMark && t.blk.state == .done) (by decide)
  ⟨_, t, by decide, h, by simpa using h'⟩
theorem witness_EmittedIndicesStay : ∃ s t : State, step s = .next t ∧ t.out ≠ s.out :=
  let ⟨t, h, h'⟩ := step_of_ends (s := going) (p := fun t => t.out == [1]) (by decide)
  ⟨going, t, h, by rw [eq_of_beq h']; decide⟩
/-- The largest dynamic entry below NEXT_CODE, at m = 2. -/
theorem witness_EmissionIsBounded : ∃ (s t : State) (c : Code) (x : Index) (xs : List Index), s.Inv ∧ s.refusalMark = false ∧
    s.blk.state = .busy ∧ rootSizeOf s.blk + 2 ≤ c.toNat ∧ c.toNat + 1 = s.blk.nextCode.toNat ∧ entryAt s.blk.table c = .seq x xs ∧
    engineTurn s = .next t :=
  let ⟨t, h, _⟩ := engine_of_ends (s := going) (p := fun _ => true) (by decide)
  ⟨going, t, 6, 0, [0], going_inv, rfl, rfl, by decide, by decide, by decide, h⟩
theorem witness_EveryCodeStepAdvances : ∃ s t : State, s.Inv ∧ s.refusalMark = false ∧ s.blk.state = .busy ∧ s.sinkAccepts = true ∧
    engineTurn s = .next t ∧ t.blk.state = .busy :=
  let ⟨t, h, h'⟩ := engine_of_ends (s := going) (p := fun t => t.blk.state == .busy) (by decide)
  ⟨going, t, going_inv, rfl, rfl, rfl, h, eq_of_beq h'⟩
theorem witness_DecodeTerminates : ∃ s : State, s.Inv ∧ s.refusalMark = false ∧ s.blk.state = .busy ∧ s.sinkAccepts = true ∧ s.pending = [] :=
  ⟨fresh, fresh_inv, rfl, rfl, rfl, rfl⟩
theorem witness_OutCountNeverWraps : ∃ s t : State, s.Inv ∧ s.refusalMark = false ∧ s.blk.state = .busy ∧ engineTurn s = .next t :=
  let ⟨t, h, _⟩ := engine_of_ends (s := going) (p := fun _ => true) (by decide)
  ⟨going, t, going_inv, rfl, rfl, h⟩
theorem witness_ConfigurationIsFixedWhileBusy : ∃ s t : State, s.blk.state = .busy ∧ step s = .next t ∧ t.refusalMark = false ∧
    ∀ es, s.pending ≠ .rst :: es :=
  let ⟨t, h, h'⟩ := step_of_ends (s := { going with pending := [.host 32 0x10400000003#41] }) (p := fun t => !t.refusalMark) (by decide)
  ⟨{ going with pending := [.host 32 0x10400000003#41] }, t, rfl, h, by simpa using h', fun _ h => by cases h⟩
theorem witness_FullTableClasses : ∃ (s : State) (x : CodeCtx), s.Inv ∧ s.refusalMark = false ∧ s.blk.state = .busy ∧ s.blk.phase = .loop ∧
    s.blk.nextCode.toNat = 4096 ∧ codeCtx s.blk = some x :=
  ⟨decoding 4096 true .loop [] 2, ⟨.loop, false, .m2, true, 4096⟩,
    decoding_inv (by decide) (by decide) (fun h => by cases h) (fun h => by cases h) (by decide), rfl, rfl, rfl, by decide, by decide⟩
theorem witness_OnlyRootsWithoutPrevious : ∃ (s : State) (x : CodeCtx), s.Inv ∧ s.refusalMark = false ∧ s.blk.state = .busy ∧
    s.blk.phase = .loop ∧ s.blk.prevValid = false ∧ codeCtx s.blk = some x ∧ noPrevCode (decodeCode x 3) = some 3 ∧
    classOf (decodeCode x 6) = some .kwkwk :=
  ⟨fresh, ⟨.loop, false, .m2, false, 6⟩, fresh_inv, rfl, rfl, rfl, rfl, by decide, by decide, by decide⟩
theorem witness_ClearEqualsAFreshDecode : ∃ (s a u b c : State) (hi : BitVec 30) (i j : Instr), s.Inv ∧ s.refusalMark = false ∧
    s.blk.state = .busy ∧ s.blk.phase = .loop ∧ isClear i = true ∧ exec i s = .next a ∧
    u.blk.state ≠ .busy ∧ u.blk.config = s.blk.config ∧ u.blk.inLen = s.blk.inLen ∧
    exec (.start hi) u = .next b ∧ firstAccepted j = true ∧ exec j b = .next c :=
  ⟨going, _, { going with blk := { going.blk with state := .done } }, _, _, 0, .clearM2, .first 0, going_inv, rfl, rfl, rfl, rfl, rfl,
    by decide, rfl, rfl, rfl, rfl, rfl⟩
theorem witness_IrqIsALevel : ∃ s t : State, irq s.blk = true ∧ step s = .next t ∧ t.refusalMark = false ∧ irq t.blk = false :=
  let ⟨t, h, h'⟩ := step_of_ends (s := { resting .done with pending := [.host 32 0x10400000002#41] })
    (p := fun t => !t.refusalMark && !irq t.blk) (by decide)
  ⟨{ resting .done with pending := [.host 32 0x10400000002#41] }, t, by decide, h, by simpa using h'⟩
/-- A changed byte, and as the next event a START that BUSY ignores, or a store. -/
theorem witness_ChangedBytesStayChanged :
    (∃ (s t : State) (es : List Event) (w : HbusWord), step s = .next t ∧ s.changed = [0] ∧ s.pending = .host 32 w :: es ∧
      hbusWe w = true ∧ hbusOff w = 0 ∧ (hbusData w).extractLsb' 0 2 = 1 ∧ s.blk.state = .busy) ∧
    ∃ s t : State, step s = .next t ∧ s.changed = [0] ∧ ∀ w es, s.pending ≠ .host 32 w :: es :=
  ⟨⟨{ going with changed := [0], pending := [.host 32 0x10000000001#41] }, _, [], 0x10000000001#41, rfl, rfl, rfl, by decide, by decide,
    by decide, rfl⟩,
    { resting .done with changed := [0], pending := [.place 1 5] }, _, rfl, rfl, fun _ _ h => by cases h⟩
theorem witness_SinkAnswerSetsTheFlag : ∃ (s : State) (es : List Event), s.pending = .sink false :: es ∧ s.sinkAccepts = true :=
  ⟨{ going with pending := [.sink false] }, [], rfl, rfl⟩
theorem witness_OutCountReadsInHalves : ∃ s : State, s.blk.state ≠ .busy ∧ s.blk.outCount = 0x500000003#64 :=
  ⟨{ resting .done with blk := { (resting .done).blk with outCount := 0x500000003#64 } }, by decide, rfl⟩
/-- Each class at CLEAR_CODE or beside it (R84). -/
theorem witness_FirstClassesPartitionTheCodes :
    classOf (decodeCode ⟨.first, false, .m2, false, 6⟩ 4) = some .first ∧
    classOf (decodeCode ⟨.first, true, .m2, false, 6⟩ 4) = some .firstClear ∧
    classOf (decodeCode ⟨.first, true, .m2, false, 6⟩ 5) = some .firstBad ∧
    classOf (decodeCode ⟨.first, true, .m2, false, 6⟩ 3) = some .firstBad := by decide
theorem test_sink_answer :
    ends (step { going with pending := [.sink false, .engine] }) (fun t => !t.sinkAccepts && t.pending == [.engine] && t.out == []) = true := by
  decide
/-- R30: the low half of OUT_COUNT. -/
theorem test_read_out_count_lo :
    ends (host 0x02400000000#41 { resting .done with blk := { (resting .done).blk with outCount := 0x500000003#64 } })
      (fun t => t.rdata == 3) = true := by decide

end Sys2Proof.Tests
end

section
/-! PROOFS. The registers of 10_state.md: what writes CONFIG and IN_LEN, what the engine reads of CONFIG, the values at reset, and the
layout of STATUS, PREV_CODE and OUT_COUNT. -/

namespace Sys2Proof.Machine

open Sys2Proof

/-! ## Configuration over a step (R33, R185, R186) -/

/-- No move of the engine writes CONFIG or IN_LEN. -/
theorem codeMove_configuration {s t : State} (h : CodeMove s t) :
    t.blk.config = s.blk.config ∧ t.blk.inLen = s.blk.inLen := by
  cases h <;> simp [raiseNoCode, acceptFirst, clearTable, freshTable, endDecode, emitAll_eq, setPrev]

/-- No host transaction but a refused one writes CONFIG or IN_LEN while STATE = BUSY. -/
theorem hostMove_configuration_of_busy {s t : State} {bits : Nat} {w : HbusWord} (h : HostMove s bits w t)
    (hb : s.blk.state = .busy) (hm : t.refusalMark = false) :
    t.blk.config = s.blk.config ∧ t.blk.inLen = s.blk.inLen := by
  cases h with
  | ignored => exact ⟨rfl, rfl⟩
  | start _ _ _ _ hnb => exact absurd hb hnb
  | abort => exact ⟨rfl, rfl⟩
  | writeConfig => simp [writeConfig, isBusy, hb]
  | writeInLen => simp [writeInLen, isBusy, hb]
  | readExact v => exact ⟨rfl, rfl⟩
  | readResult v => obtain h | ⟨-, h⟩ := readResult_eq s v <;> simp [h]
  | refuse => cases hm

/-- Settles O49: the agent that comes next moves, and neither the engine's moves nor the host's in BUSY write CONFIG or IN_LEN. -/
theorem configurationIsFixedWhileBusy : Obligations.ConfigurationIsFixedWhileBusy := by
  intro s t hb hstep hmark hrst
  cases hp : s.pending with
  | nil => exact codeMove_configuration (engineTurn_codeMove hb (step_nil hp ▸ hstep))
  | cons e es =>
    cases e with
    | engine => exact codeMove_configuration (s := withPending es s) (engineTurn_codeMove hb (step_engine hp ▸ hstep))
    | host bits w =>
      obtain ⟨u, hu, hmove⟩ := decodeHbus_moves (withPending es s) bits w
      rw [step_host hp] at hstep
      obtain rfl : u = t := by simpa using hu.symm.trans hstep
      exact hostMove_configuration_of_busy (s := withPending es s) hmove hb hmark
    | sink a => rw [step_sink hp] at hstep; cases hstep; exact ⟨rfl, rfl⟩
    | place a v => rw [step_place hp] at hstep; cases hstep; exact ⟨rfl, rfl⟩
    | rst => exact absurd hp (hrst es)

/-! ## Another CONFIG with the same low nine bits (R22) -/

/-- The same block with another CONFIG: what `withConfig` does to the block. -/
def setConfig (k : Word) (b : Block) : Block := { b with config := k }

section
variable (k : Word) (s : State) (b : Block)

@[simp] theorem withConfig_blk : (withConfig k s).blk = setConfig k s.blk := rfl
@[simp] theorem withConfig_sinkAccepts : (withConfig k s).sinkAccepts = s.sinkAccepts := rfl
@[simp] theorem setConfig_config : (setConfig k b).config = k := rfl
@[simp] theorem setConfig_state : (setConfig k b).state = b.state := rfl
@[simp] theorem setConfig_codeWidth : (setConfig k b).codeWidth = b.codeWidth := rfl
@[simp] theorem setConfig_nextCode : (setConfig k b).nextCode = b.nextCode := rfl
@[simp] theorem setConfig_prev : (setConfig k b).prev = b.prev := rfl
@[simp] theorem setConfig_byteIndex : (setConfig k b).byteIndex = b.byteIndex := rfl
@[simp] theorem setConfig_bitIndex : (setConfig k b).bitIndex = b.bitIndex := rfl
@[simp] theorem setConfig_table : (setConfig k b).table = b.table := rfl
@[simp] theorem avail_setConfig : avail (setConfig k b) = avail b := rfl

theorem nextBit_setConfig : nextBit (setConfig k b) = setConfig k (nextBit b) := by
  unfold nextBit
  rw [setConfig_bitIndex]
  split <;> rfl

theorem grow_setConfig : grow (setConfig k b) = setConfig k (grow b) := by
  unfold grow
  rw [setConfig_codeWidth, setConfig_nextCode]
  split <;> rfl

@[simp] theorem register_setConfig (x : Index) (xs : List Index) :
    register x xs (setConfig k b) = setConfig k (register x xs b) :=
  grow_setConfig k { b with
    table := setEntry b.table b.nextCode.toNat (.seq x xs)
    nextCode := b.nextCode + 1 }

theorem memRead_withConfig (a : Nat) :
    memRead a (withConfig k s) = ((memRead a s).1, withConfig k (memRead a s).2) := by
  by_cases h : a ∈ s.changed <;> simp [memRead, withConfig, h]

theorem readBit_withConfig : readBit (withConfig k s) = ((readBit s).1, withConfig k (readBit s).2) := by
  simp only [readBit, withConfig_blk, setConfig_byteIndex, setConfig_bitIndex, memRead_withConfig, nextBit_setConfig]
  rfl

theorem readBits_withConfig (n : Nat) :
    readBits n (withConfig k s) = ((readBits n s).1, withConfig k (readBits n s).2) := by
  induction n generalizing s with
  | zero => rfl
  | succ n ih => simp only [readBits, readBit_withConfig, ih]

@[simp] theorem codeAtCursor_withConfig : codeAtCursor (withConfig k s) = codeAtCursor s := by
  simp [codeAtCursor, readBits_withConfig]

@[simp] theorem codeRead_withConfig : codeRead (withConfig k s) = withConfig k (codeRead s) := by
  simp [codeRead, readBits_withConfig]

@[simp] theorem emitAll_withConfig (xs : List Index) : emitAll xs (withConfig k s) = withConfig k (emitAll xs s) := by
  simp only [emitAll_eq]
  rfl

theorem acceptFirst_withConfig : acceptFirst (withConfig k s) = withConfig k (acceptFirst s) := by
  simp only [acceptFirst, codeRead_withConfig]
  rfl

theorem endDecode_withConfig : endDecode (withConfig k s) = withConfig k (endDecode s) := by
  simp only [endDecode, codeRead_withConfig]
  rfl

theorem raise_withConfig (e : ErrKind) (d : BitVec 4) (c : Code) :
    raise e d c (withConfig k s) = withConfig k (raise e d c s) := by
  simp only [raise, codeRead_withConfig]
  rfl

theorem execEod_withConfig : execEod (withConfig k s) = mapNext (withConfig k) (execEod s) := by
  unfold execEod
  rw [withConfig_blk, avail_setConfig]
  split <;> rfl

theorem presentNoPrev_withConfig (c : Code) :
    presentNoPrev c (withConfig k s) = mapNext (withConfig k) (presentNoPrev c s) := by
  simp only [presentNoPrev, withConfig_blk, setConfig_table, withConfig_sinkAccepts, codeRead_withConfig,
    emitAll_withConfig]
  split
  · split <;> rfl
  · rfl

theorem presentRegister_withConfig (c : Code) :
    presentRegister c (withConfig k s) = mapNext (withConfig k) (presentRegister c s) := by
  simp only [presentRegister, withConfig_blk, setConfig_table, setConfig_prev, withConfig_sinkAccepts,
    codeRead_withConfig, emitAll_withConfig, register_setConfig]
  split
  · split <;> rfl
  · rfl

theorem execKwkwk_withConfig (c : Code) :
    execKwkwk c (withConfig k s) = mapNext (withConfig k) (execKwkwk c s) := by
  simp only [execKwkwk, withConfig_blk, setConfig_table, setConfig_prev, withConfig_sinkAccepts, codeRead_withConfig,
    emitAll_withConfig, register_setConfig]
  split
  · split <;> rfl
  · rfl

end

section
variable {k : Word} {b : Block} (h : k.extractLsb' 0 9 = b.config.extractLsb' 0 9)
include h

theorem minCodeSize_setConfig : minCodeSize (setConfig k b) = minCodeSize b := by
  have h8 := congrArg (fun v => v.extractLsb' 0 8) h
  rw [BitVec.extractLsb'_extractLsb'_of_le (by decide), BitVec.extractLsb'_extractLsb'_of_le (by decide)] at h8
  exact congrArg BitVec.toNat h8

theorem firstCheck_setConfig : firstCheck (setConfig k b) = firstCheck b := by
  simpa [firstCheck] using congrArg (fun v => v.getLsbD 8) h

theorem codeCtx_setConfig : codeCtx (setConfig k b) = codeCtx b := by
  rw [codeCtx, minCodeSize_setConfig h, firstCheck_setConfig h]
  rfl

theorem freshTable_setConfig : freshTable (setConfig k b) = setConfig k (freshTable b) := by
  simp only [freshTable, rootSizeOf, minCodeSize_setConfig h]
  rfl

end

section
variable {k : Word} {s : State} (h : k.extractLsb' 0 9 = s.blk.config.extractLsb' 0 9)
include h

theorem clearTable_withConfig : clearTable (withConfig k s) = withConfig k (clearTable s) := by
  have hf := freshTable_setConfig (k := k) (b := (codeRead s).blk) (by rwa [codeRead_config])
  simp only [clearTable, codeRead_withConfig, withConfig_blk, hf]
  rfl

/-- The operation of a code's class reads no bit of CONFIG but the low nine. -/
theorem classStep_withConfig (x : CodeCtx) (c : Code) :
    classStep x c (withConfig k s) = mapNext (withConfig k) (classStep x c s) := by
  simp only [classStep, clearTable_withConfig h, acceptFirst_withConfig, endDecode_withConfig, raise_withConfig,
    presentNoPrev_withConfig, presentRegister_withConfig, presentFull, execKwkwk_withConfig]
  cases x.phase with
  | first => simp only; split <;> rfl
  | loop =>
    simp only
    repeat' split
    all_goals rfl

end

/-- The engine's turn in BUSY with a MIN_CODE_SIZE outside 2 to 8 (log 15). -/
theorem engineTurn_of_no_codeCtx {s : State} (hb : s.blk.state = .busy) (hx : codeCtx s.blk = none) :
    engineTurn s = if avail s.blk < s.blk.codeWidth.toNat then execEod s else .refused .minCodeSize := by
  have hb' : isBusy s.blk = true := by simp [isBusy, hb]
  simp only [engineTurn, hb', if_true, fetchCode, hx]
  by_cases h : avail s.blk < s.blk.codeWidth.toNat
  · simp only [if_pos h]; rfl
  · simp only [if_neg h]

/-- Settles O20: the class of the code is chosen by the low nine bits of CONFIG, and its operation commutes with `withConfig`. -/
theorem ctSizeAndIrqEnDoNotMatter : Obligations.CtSizeAndIrqEnDoNotMatter := by
  intro s k h
  have hctx : codeCtx (withConfig k s).blk = codeCtx s.blk := codeCtx_setConfig h
  by_cases hb : s.blk.state = .busy
  · have hb' : (withConfig k s).blk.state = .busy := hb
    cases hx : codeCtx s.blk with
    | none =>
      rw [engineTurn_of_no_codeCtx hb hx, engineTurn_of_no_codeCtx hb' (hctx.trans hx), withConfig_blk, avail_setConfig,
        setConfig_codeWidth]
      split
      · exact execEod_withConfig k s
      · rfl
    | some x =>
      rw [engineTurn_eq hb hx, engineTurn_eq hb' (hctx.trans hx), codeAtCursor_withConfig, withConfig_blk, avail_setConfig,
        setConfig_codeWidth]
      split
      · exact execEod_withConfig k s
      · exact classStep_withConfig h x _
  · rw [engineTurn_of_not_busy hb, engineTurn_of_not_busy (s := withConfig k s) hb]
    rfl

/-! ## Reset (R38) -/

theorem statusWord_reset (t : Table) : statusWord (Block.reset t) = 0 := by
  simp [statusWord, Block.reset, stateBits, errKindBits]

/-- Settles O1: every register is a field of `Block.reset`, STATUS and irq are computed from them. -/
theorem resetRegisterValues : Obligations.ResetRegisterValues := by
  refine ⟨fun t => ⟨_, rfl, rfl, rfl, statusWord_reset t, ?_⟩, rfl⟩
  simp [Block.reset, irq, ended]

/-- Settles O3: nothing is read or emitted, no error is recorded, and STATE is IDLE. -/
theorem invariantAtReset : Obligations.InvariantAtReset where
  memory := Memory.reset_wf
  rising := List.Pairwise.nil
  block _ :=
    { reserved := rfl
      inError := nofun
      noError := fun _ => ⟨rfl, rfl, rfl⟩
      counted := fun h => absurd rfl h
      inIdle := fun _ => ⟨rfl, rfl⟩ }
  engine _ := nofun

/-! ## The layout of STATUS, PREV_CODE and OUT_COUNT (R25, R28, R30, R210) -/

theorem stateOfBits_stateBits (st : RunState) : stateOfBits (stateBits st) = st := by cases st <;> rfl
theorem errKindOfBits_errKindBits (e : ErrKind) : errKindOfBits (errKindBits e) = e := by cases e <;> rfl

/-- No two STATEs have one number (R25). -/
theorem stateBits_inj {a b : RunState} : stateBits a = stateBits b ↔ a = b :=
  (Function.LeftInverse.injective stateOfBits_stateBits).eq_iff

/-- No two kinds of error have one number (R210). -/
theorem errKindBits_inj {a b : ErrKind} : errKindBits a = errKindBits b ↔ a = b :=
  (Function.LeftInverse.injective errKindOfBits_errKindBits).eq_iff

section
variable (b : Block)

/-- The bits of STATUS (R25). -/
theorem statusWord_getLsbD {i : Nat} (hi : i < 32) : (statusWord b).getLsbD i =
    ((stateBits b.state).getLsbD i || (decide (8 ≤ i) && (errKindBits b.errKind).getLsbD (i - 8)) ||
      (decide (16 ≤ i) && b.errDetail.getLsbD (i - 16))) := by
  simp only [statusWord, BitVec.getLsbD_or, BitVec.getLsbD_shiftLeft, BitVec.getLsbD_setWidth]
  grind

theorem statusWord_state : (statusWord b).extractLsb' 0 2 = stateBits b.state := by
  ext i hi
  rw [BitVec.getElem_extractLsb', statusWord_getLsbD b (by omega)]
  grind

theorem statusWord_errKind : (statusWord b).extractLsb' 8 3 = errKindBits b.errKind := by
  ext i hi
  rw [BitVec.getElem_extractLsb', statusWord_getLsbD b (by omega)]
  grind

theorem statusWord_errDetail : (statusWord b).extractLsb' 16 4 = b.errDetail := by
  ext i hi
  rw [BitVec.getElem_extractLsb', statusWord_getLsbD b (by omega)]
  grind

/-- Bits 7 to 2, 15 to 11 and 31 to 20 of STATUS are 0 (R25). -/
theorem statusWord_reserved : (statusWord b).extractLsb' 2 6 = 0 ∧ (statusWord b).extractLsb' 11 5 = 0 ∧
    (statusWord b).extractLsb' 20 12 = 0 := by
  refine ⟨?_, ?_, ?_⟩ <;>
    (ext i hi
     rw [BitVec.getElem_extractLsb', statusWord_getLsbD b (by omega)]
     grind)

/-- The bits of PREV_CODE (R28). -/
theorem prevCodeWord_getLsbD {i : Nat} (hi : i < 32) : (prevCodeWord b).getLsbD i =
    (b.prev.getLsbD i || (decide (i = 31) && b.prevValid)) := by
  simp only [prevCodeWord, BitVec.getLsbD_or, BitVec.getLsbD_shiftLeft, BitVec.getLsbD_setWidth, BitVec.getLsbD_ofBool]
  grind

theorem prevCodeWord_prev : (prevCodeWord b).extractLsb' 0 12 = b.prev := by
  ext i hi
  rw [BitVec.getElem_extractLsb', prevCodeWord_getLsbD b (by omega)]
  grind

/-- Bits 30 to 12 of PREV_CODE are 0 (R28). -/
theorem prevCodeWord_reserved : (prevCodeWord b).extractLsb' 12 19 = 0 := by
  ext i hi
  rw [BitVec.getElem_extractLsb', prevCodeWord_getLsbD b (by omega)]
  grind

theorem prevCodeWord_prevValid : (prevCodeWord b).getLsbD 31 = b.prevValid := by
  rw [prevCodeWord_getLsbD b (by decide)]
  simp

end

/-- Settles O29: each field of the word is one operand of the OR, and no two values of STATE or ERR_KIND have one number. -/
theorem statusAndPrevCodeLayout : Obligations.StatusAndPrevCodeLayout := by
  intro b
  refine ⟨?_, ?_, ?_, ?_⟩
  · rw [statusWord_state]
    exact ⟨stateBits_inj (b := .idle), stateBits_inj (b := .busy), stateBits_inj (b := .done), stateBits_inj (b := .error)⟩
  · rw [statusWord_errKind]
    exact ⟨errKindBits_inj (b := .none), errKindBits_inj (b := .invalidSignature),
      errKindBits_inj (b := .unsupportedVersion), errKindBits_inj (b := .unexpectedEndOfData),
      errKindBits_inj (b := .unknownBlockIntroducer), errKindBits_inj (b := .protocolError),
      errKindBits_inj (b := .corruptedStream), errKindBits_inj (b := .validationMismatch)⟩
  · exact ⟨statusWord_errDetail b, statusWord_reserved b⟩
  · exact ⟨prevCodeWord_prev b, prevCodeWord_reserved b, prevCodeWord_prevValid b⟩

/-- A read outside BUSY returns the register and takes no draw (R39). -/
theorem readResult_of_not_busy {s : State} (hb : s.blk.state ≠ .busy) (v : Word) :
    readResult v s = { s with rdata := v } := by
  simp [readResult, isBusy, hb]

/-- Settles O56: neither read takes a draw outside BUSY, and the first leaves the block the second reads. -/
theorem outCountReadsInHalves : Obligations.OutCountReadsInHalves := by
  intro s d d' hb
  refine ⟨_, _, congrArg Host.Outcome.next (readResult_of_not_busy hb (outCountLo s.blk)),
    congrArg Host.Outcome.next (readResult_of_not_busy hb (outCountHi s.blk)), rfl, rfl, ?_⟩
  exact BitVec.extractLsb'_append_extractLsb' (w := 32) (len := 32)

end Sys2Proof.Machine
end

section
/-! PROOFS. The memories of 20_memory.md: everything one step can do, which bytes of IN are changed ones, and what the sink holds. -/

namespace Sys2Proof.Machine

open Sys2Proof

/-! ## One step -/

/-- The outcomes of a step from `s`, one per agent, each with the event that gave it the turn: the engine outside BUSY (R135), a code
step, a host transaction, an answer of the sink, a byte stored in IN, rst (R180). -/
inductive StepMove (s : State) : State → Prop
  | still : s.pending = [] ∨ s.pending.head? = some .engine → s.blk.state ≠ .busy → StepMove s (withPending s.pending.tail s)
  | code {t : State} : s.pending = [] ∨ s.pending.head? = some .engine → s.blk.state = .busy →
      CodeMove (withPending s.pending.tail s) t → StepMove s t
  | host {t : State} (bits : Nat) (w : HbusWord) (es : List Event) : s.pending = .host bits w :: es →
      HostMove (withPending es s) bits w t → StepMove s t
  | sink (accepts : Bool) (es : List Event) : s.pending = .sink accepts :: es →
      StepMove s { withPending es s with sinkAccepts := accepts }
  | place (a : Word) (v : Byte) (es : List Event) : s.pending = .place a v :: es → StepMove s (placeByte a v (withPending es s))
  | rst (es : List Event) : s.pending = .rst :: es → StepMove s (resetBlock (withPending es s))

/-- The engine's turn, taken once its event is off the list, is one of the two moves of the engine. -/
theorem engineTurn_stepMove {s t : State} (hp : s.pending = [] ∨ s.pending.head? = some .engine)
    (h : engineTurn (withPending s.pending.tail s) = .next t) : StepMove s t := by
  by_cases hb : s.blk.state = .busy
  · exact .code hp hb (engineTurn_codeMove hb h)
  · rw [engineTurn_of_not_busy (s := withPending s.pending.tail s) hb] at h
    cases h
    exact .still hp hb

/-- Everything a step can do when it goes on. -/
theorem step_moves {s t : State} (h : step s = .next t) : StepMove s t := by
  cases hp : s.pending with
  | nil =>
    have hs : withPending s.pending.tail s = s := by rw [hp, List.tail_nil, ← hp]; rfl
    exact engineTurn_stepMove (.inl hp) (by rw [hs, ← step_nil hp, h])
  | cons e es =>
    cases e with
    | engine => exact engineTurn_stepMove (.inr (by rw [hp]; rfl)) (by rw [hp, List.tail_cons, ← step_engine hp, h])
    | host bits w =>
      obtain ⟨u, hu, hmove⟩ := decodeHbus_moves (withPending es s) bits w
      obtain rfl : u = t := by simpa using hu.symm.trans ((step_host hp).symm.trans h)
      exact .host bits w es hp hmove
    | sink accepts => rw [step_sink hp] at h; cases h; exact .sink accepts es hp
    | place a v => rw [step_place hp] at h; cases h; exact .place a v es hp
    | rst => rw [step_rst hp] at h; cases h; exact .rst es hp

section
variable (s : State) (v : Word)

@[simp] theorem readResult_changed : (readResult v s).changed = s.changed := by
  obtain h | ⟨-, h⟩ := readResult_eq s v <;> rw [h]
@[simp] theorem readResult_out : (readResult v s).out = s.out := by
  obtain h | ⟨-, h⟩ := readResult_eq s v <;> rw [h]
@[simp] theorem readResult_sinkPast : (readResult v s).sinkPast = s.sinkPast := by
  obtain h | ⟨-, h⟩ := readResult_eq s v <;> rw [h]

end

/-! ## What the sink holds (R63, R196) -/

/-- The engine's moves only add at the end of OUT. -/
theorem codeMove_out_prefix {s t : State} (h : CodeMove s t) : s.out <+: t.out := by
  cases h with
  | held | eod | err => exact List.prefix_rfl
  | accept | clear | done => exact (codeRead_out s).symm ▸ List.prefix_rfl
  | noPrev _ x xs | reg _ x xs => simp [emitAll_eq]
  | kw _ p ps => simp [emitAll_eq]

/-- The engine's moves only add at the end of what the sink holds. -/
theorem codeMove_sinkHolds_prefix {s t : State} (h : CodeMove s t) : sinkHolds s <+: sinkHolds t := by
  obtain ⟨-, -, -, -, -, hpast⟩ := codeMove_frame h
  rw [sinkHolds, sinkHolds, hpast]
  exact (List.prefix_append_right_inj _).2 (codeMove_out_prefix h)

/-- No host transaction changes what the sink holds: START only counts OUT to what was accepted before it. -/
theorem hostMove_sinkHolds {s t : State} {bits : Nat} {w : HbusWord} (h : HostMove s bits w t) : sinkHolds t = sinkHolds s := by
  cases h with
  | start => exact List.append_nil _
  | readResult v => simp [sinkHolds]
  | ignored | abort | writeConfig | writeInLen | readExact | refuse => rfl

/-- Settles O44: the engine adds at the end of OUT, and every other agent leaves what the sink holds as it is. -/
theorem emittedIndicesStay : Obligations.EmittedIndicesStay := by
  intro s t hstep
  cases step_moves hstep with
  | code _ _ hmove => exact codeMove_sinkHolds_prefix (s := withPending s.pending.tail s) hmove
  | host _ _ _ _ hmove => exact (hostMove_sinkHolds hmove).symm ▸ List.prefix_rfl
  | still | sink | place | rst => exact List.prefix_rfl

/-! ## Which bytes of IN are changed ones (R66) -/

/-- A store of another value below IN_LEN in BUSY adds its address to the changed ones. -/
theorem mem_placeByte_changed {s : State} {a : Word} {v : Byte} (hb : s.blk.state = .busy) (ha : a.toNat < s.blk.inLen.toNat)
    (hv : Memory.read s.input a.toNat ≠ v) (a' : Nat) : a' ∈ (placeByte a v s).changed ↔ a' = a.toNat ∨ a' ∈ s.changed := by
  have hc : (placeByte a v s).changed = insertAddress s.changed a.toNat := if_pos ⟨by simp [isBusy, hb], ha, hv⟩
  rw [hc, mem_insertAddress]

/-- Any other store leaves the changed ones as they are. -/
theorem placeByte_changed_of_no_change {s : State} {a : Word} {v : Byte}
    (h : s.blk.state ≠ .busy ∨ s.blk.inLen.toNat ≤ a.toNat ∨ Memory.read s.input a.toNat = v) :
    (placeByte a v s).changed = s.changed := by
  refine if_neg ?_
  rintro ⟨hb, ha, hv⟩
  obtain h | h | h := h
  · exact h (by simpa [isBusy] using hb)
  · exact Nat.not_le_of_lt ha h
  · exact hv h

/-- No store takes an address from the changed ones. -/
theorem changed_subset_placeByte (s : State) (a : Word) (v : Byte) : s.changed ⊆ (placeByte a v s).changed := by
  by_cases h : s.blk.state = .busy ∧ a.toNat < s.blk.inLen.toNat ∧ Memory.read s.input a.toNat ≠ v
  · obtain ⟨hb, ha, hv⟩ := h
    exact fun a' h' => (mem_placeByte_changed hb ha hv a').2 (.inr h')
  · rw [placeByte_changed_of_no_change (by simpa only [not_and_or, not_lt, not_not] using h)]
    exact List.Subset.refl _

/-- The event stores a byte in IN: everything but IN, the changed addresses and the coming events stays. -/
theorem placeByte_frame (s : State) (es : List Event) (a : Word) (v : Byte) :
    placeByte a v (withPending es s) =
      { s with
        pending := es
        input := (placeByte a v (withPending es s)).input
        changed := (placeByte a v (withPending es s)).changed } := rfl

/-- Settles O17: the three conditions of `placeByte` hold together, or one of them fails; INIT empties the list. -/
theorem changingInputWhileBusyMakesDraws : Obligations.ChangingInputWhileBusyMakesDraws := by
  refine ⟨?_, ?_, fun s hi => ⟨init s, rfl, init_changed s⟩⟩
  · intro s es a v hp hb ha hv
    exact ⟨_, step_place hp, placeByte_frame s es a v, mem_placeByte_changed (s := withPending es s) hb ha hv⟩
  · intro s es a v hp h
    exact ⟨_, step_place hp, placeByte_changed_of_no_change (s := withPending es s) h⟩

/-- Of the host's transactions only START, with its CTRL word and outside BUSY, writes the changed addresses. -/
theorem hostMove_changed {s t : State} {bits : Nat} {w : HbusWord} (h : HostMove s bits w t) : t.changed = s.changed ∨
    bits = 32 ∧ hbusWe w = true ∧ hbusOff w = 0 ∧ (hbusData w).extractLsb' 0 2 = 1 ∧ s.blk.state ≠ .busy := by
  cases h with
  | start hbits hwe hoff hdata hnb => exact .inr ⟨hbits, hwe, hoff, hdata, hnb⟩
  | readResult v => exact .inl (readResult_changed s v)
  | ignored | abort | writeConfig | writeInLen | readExact | refuse => exact .inl rfl

/-- Settles O54: the engine leaves the changed addresses, a store only adds to them, and the hypothesis excludes START. -/
theorem changedBytesStayChanged : Obligations.ChangedBytesStayChanged := by
  intro s t hstep hstart a ha
  cases step_moves hstep with
  | code _ _ hmove =>
    obtain ⟨-, hchanged, -⟩ := codeMove_frame hmove
    exact hchanged ▸ ha
  | host bits w es hp hmove =>
    obtain hchanged | ⟨rfl, hwe, hoff, hdata, hnb⟩ := hostMove_changed hmove
    · exact hchanged ▸ ha
    · exact absurd (hstart w es hp hwe hoff hdata) hnb
  | place b v es => exact changed_subset_placeByte (withPending es s) b v ha
  | still | sink | rst => exact ha

/-! ## Reading and storing a byte of IN (R60, R61) -/

/-- A byte the host has changed reads as the next draw (R66). -/
theorem memRead_of_changed {a : Nat} {s : State} (h : a ∈ s.changed) :
    memRead a s = ((Config.draw s.draws).setWidth 8, { s with draws := s.draws + 1 }) := if_pos h

/-- Settles O16: the two branches of MemRead. -/
theorem memReadIsExactOrADraw : Obligations.MemReadIsExactOrADraw :=
  fun _ _ => ⟨memRead_exact, memRead_of_changed⟩

/-- Settles O18: the store is a write of the memory IN, and a read after it finds the byte at its address and no other byte changed. -/
theorem storedInputByteReadsBack : Obligations.StoredInputByteReadsBack := by
  intro s es a v hwf hp
  exact ⟨_, step_place hp, placeByte_frame s es a v, Memory.read_write_same hwf a.toNat v,
    fun a' => Memory.read_write_other a.toNat a' v⟩

end Sys2Proof.Machine
end

section
/-! PROOFS. The encodings of 30_encoding.md: host transactions and codes decode and encode into each other, every code has one class,
a code is made of stream bits, and a word of the opcode table is what the next step runs. -/

namespace Sys2Proof.Machine

open Sys2Proof

/-! ## The fields of a host transaction (R88) -/

section
variable (we : Bool) (off : BitVec 8) (d : Word) (w : HbusWord)

theorem hbusWord_getLsbD {i : Nat} (hi : i < 41) : (hbusWord we off d).getLsbD i =
    if i < 32 then d.getLsbD i else if i < 40 then off.getLsbD (i - 32) else we := by
  show (BitVec.ofBool we ++ off ++ d : BitVec (1 + 8 + 32)).getLsbD i = _
  have h8 : i - 32 < 8 ↔ i < 40 := by omega
  have h0 : i - 32 - 8 = 0 := by omega
  simp only [BitVec.getLsbD_append, BitVec.getLsbD_ofBool, h8, h0, decide_true, Bool.true_and]

@[simp] theorem hbusWe_hbusWord : hbusWe (hbusWord we off d) = we :=
  hbusWord_getLsbD we off d (by decide)

@[simp] theorem hbusOff_hbusWord : hbusOff (hbusWord we off d) = off := by
  refine BitVec.eq_of_getLsbD_eq fun i hi => ?_
  rw [hbusOff, BitVec.getLsbD_extractLsb', hbusWord_getLsbD we off d (by omega)]
  grind

@[simp] theorem hbusData_hbusWord : hbusData (hbusWord we off d) = d := by
  refine BitVec.eq_of_getLsbD_eq fun i hi => ?_
  rw [hbusData, BitVec.getLsbD_extractLsb', hbusWord_getLsbD we off d (by omega)]
  grind

/-- A word is made of its three fields. -/
theorem hbusWord_fields : hbusWord (hbusWe w) (hbusOff w) (hbusData w) = w := by
  refine BitVec.eq_of_getLsbD_eq fun i hi => ?_
  simp only [hbusWord_getLsbD _ _ _ hi, hbusWe, hbusOff, hbusData, BitVec.getLsbD_extractLsb']
  grind

theorem hbusOff_getLsbD_zero : (hbusOff w).getLsbD 0 = w.getLsbD 32 := by simp [hbusOff]
theorem hbusOff_getLsbD_one : (hbusOff w).getLsbD 1 = w.getLsbD 33 := by simp [hbusOff]
end

/-! ## The register window (R89, R92) -/

/-- The offsets of the twelve registers (10_state.md section 2). -/
def registerOffsets : List (BitVec 8) :=
  [0x00#8, 0x04#8, 0x08#8, 0x0C#8, 0x10#8, 0x14#8, 0x18#8, 0x1C#8, 0x20#8, 0x24#8, 0x28#8, 0x2C#8]

/-- The offset is a multiple of 4 at which no register stands (R92). -/
abbrev Unmapped (off : BitVec 8) : Prop := off.getLsbD 0 = false ∧ off.getLsbD 1 = false ∧ off ∉ registerOffsets

theorem unmapped30_iff : ∀ off : BitVec 8,
    (off &&& 0xF3#8 == 0x30#8) = true ↔ Unmapped off ∧ off.getLsbD 6 = false ∧ off.getLsbD 7 = false := by decide
theorem unmapped40_iff : ∀ off : BitVec 8, (off &&& 0x43#8 == 0x40#8) = true ↔ Unmapped off ∧ off.getLsbD 6 = true := by decide
theorem unmapped80_iff : ∀ off : BitVec 8,
    (off &&& 0xC3#8 == 0x80#8) = true ↔ Unmapped off ∧ off.getLsbD 6 = false ∧ off.getLsbD 7 = true := by decide

section
variable {off : BitVec 8} (h : off ∉ registerOffsets) (busy : Bool) (d : Word)
include h

theorem decodeRead_unmapped : decodeRead off d =
    if off.getLsbD 6 then .rdUnmapped40 off d else if off.getLsbD 7 then .rdUnmapped80 off d else .rdUnmapped30 off d := by
  simp only [registerOffsets, List.mem_cons, List.not_mem_nil, or_false, not_or] at h
  simp only [decodeRead, h, if_false]

theorem decodeWrite_unmapped : decodeWrite busy off d =
    if off.getLsbD 6 then .wrUnmapped40 off d else if off.getLsbD 7 then .wrUnmapped80 off d else .wrUnmapped30 off d := by
  simp only [registerOffsets, List.mem_cons, List.not_mem_nil, or_false, not_or] at h
  simp only [decodeWrite, h, if_false]

end

/-! ## The CTRL word (R90, R189) -/

/-- The two commands of a CTRL word, bit 1 first. -/
theorem ctrl_low (d : Word) : d.extractLsb' 0 2 = BitVec.ofBool (d.getLsbD 1) ++ BitVec.ofBool (d.getLsbD 0) := by
  refine BitVec.eq_of_getLsbD_eq fun i hi => ?_
  rw [BitVec.getLsbD_extractLsb', BitVec.getLsbD_append, BitVec.getLsbD_ofBool, BitVec.getLsbD_ofBool]
  grind

/-- A CTRL word is made of its ignored bits and its two commands. -/
theorem ctrl_fields (d : Word) :
    d.extractLsb' 2 30 ++ (BitVec.ofBool (d.getLsbD 1) ++ BitVec.ofBool (d.getLsbD 0)) = d := by
  rw [← ctrl_low]
  exact BitVec.extractLsb'_append_extractLsb' (w := 30) (len := 2)

theorem decodeCtrl_append (busy : Bool) (hi : BitVec 30) (low : BitVec 2) : decodeCtrl busy (hi ++ low) =
    if low.getLsbD 1 then .abort (low.getLsbD 0) hi
    else if low.getLsbD 0 then if busy then .startBusy hi else .start hi
    else .ctrlNop hi := by
  have h0 : (hi ++ low).getLsbD 0 = low.getLsbD 0 := by rw [BitVec.getLsbD_append]; rfl
  have h1 : (hi ++ low).getLsbD 1 = low.getLsbD 1 := by rw [BitVec.getLsbD_append]; rfl
  have h2 : (hi ++ low).extractLsb' 2 30 = hi := BitVec.extractLsb'_append_eq_left
  rw [decodeCtrl, h0, h1, h2]

/-! ## Decoding an encoded host transaction -/

/-- An aligned transaction is a read or a write by WE (R88). -/
theorem decodeHbus_hbusWord (busy we : Bool) {off : BitVec 8} (d : Word) (h0 : off.getLsbD 0 = false) (h1 : off.getLsbD 1 = false) :
    decodeHbus busy 32 (hbusWord we off d) = if we then decodeWrite busy off d else decodeRead off d := by
  have hb0 : (hbusWord we off d).getLsbD 32 = false := by rw [← hbusOff_getLsbD_zero, hbusOff_hbusWord, h0]
  have hb1 : (hbusWord we off d).getLsbD 33 = false := by rw [← hbusOff_getLsbD_one, hbusOff_hbusWord, h1]
  rw [decodeHbus, if_neg (by decide), hb0, hb1, hbusWe_hbusWord, hbusOff_hbusWord, hbusData_hbusWord]
  rfl

/-- A transaction at an offset of no register (R92). -/
theorem decodeHbus_unmapped (busy we : Bool) {off : BitVec 8} (d : Word) (h : Unmapped off) :
    decodeHbus busy 32 (hbusWord we off d) =
      if we then
        if off.getLsbD 6 then .wrUnmapped40 off d else if off.getLsbD 7 then .wrUnmapped80 off d else .wrUnmapped30 off d
      else if off.getLsbD 6 then .rdUnmapped40 off d else if off.getLsbD 7 then .rdUnmapped80 off d else .rdUnmapped30 off d := by
  obtain ⟨h0, h1, hm⟩ := h
  rw [decodeHbus_hbusWord busy we d h0 h1, decodeWrite_unmapped hm, decodeRead_unmapped hm]

/-- A transaction that is not 32 bits wide, or whose OFF[0] is 1, is refused (R181). -/
theorem decodeHbus_refusedOff0 (busy : Bool) {bits : Nat} {w : HbusWord} (h : bits ≠ 32 ∨ w.getLsbD 32 = true) :
    decodeHbus busy bits w = .refusedOff0 bits w := by
  by_cases hb : bits = 32
  · subst hb
    exact (if_neg (by simp)).trans (if_pos (h.resolve_left (by simp)))
  · exact if_pos hb

/-- A 32-bit transaction with OFF[1:0] = 2 is refused (R181). -/
theorem decodeHbus_refusedOff1 (busy : Bool) {w : HbusWord} (h0 : w.getLsbD 32 = false) (h1 : w.getLsbD 33 = true) :
    decodeHbus busy 32 w = .refusedOff1 w := by
  rw [decodeHbus, if_neg (by simp), h0, h1]
  rfl

/-- A CTRL write is decoded by its two commands. -/
theorem decodeHbus_ctrlWord (busy : Bool) (hi : BitVec 30) (low : BitVec 2) : decodeHbus busy 32 (ctrlWord hi low) =
    if low.getLsbD 1 then .abort (low.getLsbD 0) hi
    else if low.getLsbD 0 then if busy then .startBusy hi else .start hi
    else .ctrlNop hi :=
  (decodeHbus_hbusWord busy true _ rfl rfl).trans (decodeCtrl_append busy hi low)

/-! ## The rows of a minimum code size -/

section
variable (c : Code) (m : MinCode)

theorem classOf_firstClearRow : classOf (firstClearRow m) = some .firstClear := by cases m <;> rfl
theorem classOf_clearRow : classOf (clearRow m) = some .clear := by cases m <;> rfl
theorem classOf_endRow : classOf (endRow m) = some .endMark := by cases m <;> rfl
theorem classOf_litNoprevRow : classOf (litNoprevRow c m) = some .lit := by cases m <;> rfl
theorem classOf_litRow : classOf (litRow c m) = some .lit := by cases m <;> rfl
theorem classOf_litFullRow : classOf (litFullRow c m) = some .lit := by cases m <;> rfl

end

/-! ## Codes: the class map by the value of the code (R84) -/

section
variable {x : CodeCtx} {c : Code}

theorem decodeCode_first (hp : x.phase = .first) : decodeCode x c =
    if x.firstCheck = false then .first c
    else if c.toNat = rootSize x.minCode then firstClearRow x.minCode
    else .firstBad c := by
  rw [decodeCode, hp]

variable (hp : x.phase = .loop)
include hp

theorem decodeCode_clear (hc : c.toNat = rootSize x.minCode) : decodeCode x c = clearRow x.minCode := by
  rw [decodeCode, hp]
  exact if_pos hc

theorem decodeCode_end (hc : c.toNat = rootSize x.minCode + 1) : decodeCode x c = endRow x.minCode := by
  rw [decodeCode, hp]
  simp [hc]

theorem decodeCode_lit (hc : c.toNat < rootSize x.minCode) : decodeCode x c =
    if x.prevValid = false then litNoprevRow c x.minCode
    else if x.nextCode < 4096 then litRow c x.minCode
    else litFullRow c x.minCode := by
  have h0 : c.toNat ≠ rootSize x.minCode := by omega
  have h1 : c.toNat ≠ rootSize x.minCode + 1 := by omega
  rw [decodeCode, hp]
  simp only [h0, h1, hc, if_true, if_false]

theorem decodeCode_dict (hc : rootSize x.minCode + 2 ≤ c.toNat) (hn : c.toNat < x.nextCode) : decodeCode x c =
    if x.prevValid = false then .dictNoprev c
    else if x.nextCode < 4096 then .dict c
    else .dictFull c := by
  have h0 : c.toNat ≠ rootSize x.minCode := by omega
  have h1 : c.toNat ≠ rootSize x.minCode + 1 := by omega
  have h2 : ¬ c.toNat < rootSize x.minCode := by omega
  rw [decodeCode, hp]
  simp only [h0, h1, h2, hn, if_true, if_false]

variable (hr : rootSize x.minCode + 2 ≤ x.nextCode)
include hr

/-- A code that is not below NEXT_CODE is neither a root, CLEAR nor END. -/
theorem decodeCode_not_present (hc : x.nextCode ≤ c.toNat) : decodeCode x c =
    if c.toNat = x.nextCode then if x.prevValid then .kwkwk c else .kwkwkNoprev c else .beyond c := by
  have h0 : c.toNat ≠ rootSize x.minCode := by omega
  have h1 : c.toNat ≠ rootSize x.minCode + 1 := by omega
  have h2 : ¬ c.toNat < rootSize x.minCode := by omega
  have h3 : ¬ c.toNat < x.nextCode := by omega
  rw [decodeCode, hp]
  simp only [h0, h1, h2, h3, if_false]

theorem decodeCode_kwkwk (hc : c.toNat = x.nextCode) :
    decodeCode x c = if x.prevValid then .kwkwk c else .kwkwkNoprev c :=
  (decodeCode_not_present hp hr hc.ge).trans (if_pos hc)

theorem decodeCode_beyond (hc : x.nextCode < c.toNat) : decodeCode x c = .beyond c :=
  (decodeCode_not_present hp hr hc.le).trans (if_neg hc.ne')

end

/-! ## Decoding an encoded instruction -/

section
variable {x : CodeCtx} {m : MinCode} {c : Code}

theorem loopAt_iff : x.loopAt m = true ↔ x.phase = .loop ∧ x.minCode = m := by simp [CodeCtx.loopAt]
theorem checkAt_iff : x.checkAt m = true ↔ x.phase = .first ∧ x.firstCheck = true ∧ x.minCode = m := by
  simp [CodeCtx.checkAt, and_assoc]
theorem dynamic_iff : x.dynamic c = true ↔
    x.phase = .loop ∧ rootSize x.minCode + 2 ≤ c.toNat ∧ c.toNat < x.nextCode := by
  simp [CodeCtx.dynamic, and_assoc]

/-- CLEAR_CODE fits a code. -/
theorem clearCode_toNat (m : MinCode) : (BitVec.ofNat 12 (rootSize m)).toNat = rootSize m := by cases m <;> rfl
/-- END_CODE fits a code. -/
theorem endCode_toNat (m : MinCode) : (BitVec.ofNat 12 (rootSize m + 1)).toNat = rootSize m + 1 := by cases m <;> rfl

/-- A root code given by its low k bits is below 2^k. -/
theorem rootCode_lt {k : Nat} (r : BitVec k) : (r.setWidth 12).toNat < 2 ^ k := by
  rw [BitVec.toNat_setWidth]
  exact Nat.lt_of_le_of_lt (Nat.mod_le _ _) r.isLt

theorem decodeCode_firstClear_of_checkAt (h : x.checkAt m = true) :
    decodeCode x (BitVec.ofNat 12 (rootSize m)) = firstClearRow m := by
  obtain ⟨hp, hf, rfl⟩ := checkAt_iff.1 h
  rw [decodeCode_first hp, if_neg (by simp [hf]), if_pos (clearCode_toNat _)]

theorem decodeCode_clear_of_loopAt (h : x.loopAt m = true) :
    decodeCode x (BitVec.ofNat 12 (rootSize m)) = clearRow m := by
  obtain ⟨hp, rfl⟩ := loopAt_iff.1 h
  exact decodeCode_clear hp (clearCode_toNat _)

theorem decodeCode_end_of_loopAt (h : x.loopAt m = true) :
    decodeCode x (BitVec.ofNat 12 (rootSize m + 1)) = endRow m := by
  obtain ⟨hp, rfl⟩ := loopAt_iff.1 h
  exact decodeCode_end hp (endCode_toNat _)

section
variable (hc : c.toNat < rootSize m)
include hc

theorem decodeCode_litNoprevRow (h : (x.loopAt m && !x.prevValid) = true) : decodeCode x c = litNoprevRow c m := by
  simp only [Bool.and_eq_true, loopAt_iff, Bool.not_eq_true'] at h
  obtain ⟨⟨hp, rfl⟩, hv⟩ := h
  rw [decodeCode_lit hp hc, if_pos hv]

theorem decodeCode_litRow (h : (x.loopAt m && x.prevValid && decide (x.nextCode < Config.tableSize)) = true) :
    decodeCode x c = litRow c m := by
  simp only [Bool.and_eq_true, loopAt_iff, decide_eq_true_eq] at h
  obtain ⟨⟨⟨hp, rfl⟩, hv⟩, hroom⟩ := h
  rw [decodeCode_lit hp hc, if_neg (by simp [hv]), if_pos hroom]

theorem decodeCode_litFullRow (h : (x.loopAt m && x.prevValid && decide (x.nextCode = Config.tableSize)) = true) :
    decodeCode x c = litFullRow c m := by
  simp only [Bool.and_eq_true, loopAt_iff, decide_eq_true_eq] at h
  obtain ⟨⟨⟨hp, rfl⟩, hv⟩, hfull⟩ := h
  rw [decodeCode_lit hp hc, if_neg (by simp [hv]), if_neg (by simp [hfull])]

end

end

/-- Settles O6: a transaction decodes by its fields, a code by its value; one case per row, the rows of one rule together. -/
theorem decodeOfEncode : Obligations.DecodeOfEncode := by
  intro x i hlo hhi hwf hadm
  cases i with
  | start hi =>
    have hb : x.busy = false := by simpa [Ctx.admits] using hadm
    exact (decodeHbus_ctrlWord x.busy hi _).trans (by rw [hb]; rfl)
  | startBusy hi =>
    have hb : x.busy = true := hadm
    exact (decodeHbus_ctrlWord x.busy hi _).trans (by rw [hb]; rfl)
  | abort start hi => exact (decodeHbus_ctrlWord x.busy hi _).trans (by cases start <;> rfl)
  | ctrlNop hi => exact decodeHbus_ctrlWord x.busy hi _
  | wrConfig d | wrInLen d | wrStatus d | wrCodeWidth d | wrNextCode d | wrPrevCode d | wrByteIndex d | wrBitIndex d
  | wrOutCountLo d | wrOutCountHi d | wrErrCode d => exact decodeHbus_hbusWord x.busy true d rfl rfl
  | rdCtrl d | rdConfig d | rdInLen d | rdStatus d | rdCodeWidth d | rdNextCode d | rdPrevCode d | rdByteIndex d | rdBitIndex d
  | rdOutCountLo d | rdOutCountHi d | rdErrCode d => exact decodeHbus_hbusWord x.busy false d rfl rfl
  | rdUnmapped30 off d | wrUnmapped30 off d =>
    obtain ⟨hu, h6, h7⟩ := (unmapped30_iff off).1 hwf
    exact (decodeHbus_unmapped x.busy _ d hu).trans (by rw [h6, h7]; rfl)
  | rdUnmapped40 off d | wrUnmapped40 off d =>
    obtain ⟨hu, h6⟩ := (unmapped40_iff off).1 hwf
    exact (decodeHbus_unmapped x.busy _ d hu).trans (by rw [h6]; rfl)
  | rdUnmapped80 off d | wrUnmapped80 off d =>
    obtain ⟨hu, h6, h7⟩ := (unmapped80_iff off).1 hwf
    exact (decodeHbus_unmapped x.busy _ d hu).trans (by rw [h6, h7]; rfl)
  | refusedOff0 bits w =>
    simp only [WellFormed, Instr.wf, Bool.or_eq_true, bne_iff_ne] at hwf
    exact decodeHbus_refusedOff0 x.busy hwf
  | refusedOff1 w =>
    simp only [WellFormed, Instr.wf, Bool.and_eq_true, Bool.not_eq_true'] at hwf
    obtain ⟨h0, h1⟩ := hwf
    exact decodeHbus_refusedOff1 x.busy h0 h1
  | eod => rfl
  | first c =>
    simp only [Ctx.admits, Bool.and_eq_true, beq_iff_eq, Bool.not_eq_true'] at hadm
    obtain ⟨hp, hf⟩ := hadm
    exact (decodeCode_first hp).trans (if_pos hf)
  | firstClearM2 | firstClearM3 | firstClearM4 | firstClearM5 | firstClearM6 | firstClearM7 | firstClearM8 =>
    exact decodeCode_firstClear_of_checkAt hadm
  | firstBad c =>
    simp only [Ctx.admits, Bool.and_eq_true, beq_iff_eq, bne_iff_ne] at hadm
    obtain ⟨⟨hp, hf⟩, hc⟩ := hadm
    exact (decodeCode_first hp).trans ((if_neg (by simp [hf])).trans (if_neg hc))
  | clearM2 | clearM3 | clearM4 | clearM5 | clearM6 | clearM7 | clearM8 => exact decodeCode_clear_of_loopAt hadm
  | endM2 | endM3 | endM4 | endM5 | endM6 | endM7 | endM8 => exact decodeCode_end_of_loopAt hadm
  | litM2Noprev r | litM3Noprev r | litM4Noprev r | litM5Noprev r | litM6Noprev r | litM7Noprev r | litM8Noprev r =>
    exact (decodeCode_litNoprevRow (rootCode_lt r) hadm).trans (by simp [litNoprevRow, BitVec.setWidth_setWidth_of_le])
  | litM2 r | litM3 r | litM4 r | litM5 r | litM6 r | litM7 r | litM8 r =>
    exact (decodeCode_litRow (rootCode_lt r) hadm).trans (by simp [litRow, BitVec.setWidth_setWidth_of_le])
  | litM2Full r | litM3Full r | litM4Full r | litM5Full r | litM6Full r | litM7Full r | litM8Full r =>
    exact (decodeCode_litFullRow (rootCode_lt r) hadm).trans (by simp [litFullRow, BitVec.setWidth_setWidth_of_le])
  | dictNoprev c =>
    simp only [Ctx.admits, Bool.and_eq_true, dynamic_iff, Bool.not_eq_true'] at hadm
    obtain ⟨⟨hp, hc, hn⟩, hv⟩ := hadm
    exact (decodeCode_dict hp hc hn).trans (if_pos hv)
  | dict c =>
    simp only [Ctx.admits, Bool.and_eq_true, dynamic_iff, decide_eq_true_eq] at hadm
    obtain ⟨⟨⟨hp, hc, hn⟩, hv⟩, hroom⟩ := hadm
    exact (decodeCode_dict hp hc hn).trans ((if_neg (by simp [hv])).trans (if_pos hroom))
  | dictFull c =>
    simp only [Ctx.admits, Bool.and_eq_true, dynamic_iff, decide_eq_true_eq] at hadm
    obtain ⟨⟨⟨hp, hc, hn⟩, hv⟩, hfull⟩ := hadm
    exact (decodeCode_dict hp hc hn).trans ((if_neg (by simp [hv])).trans (if_neg (by simp [hfull])))
  | kwkwk c =>
    simp only [Ctx.admits, Bool.and_eq_true, beq_iff_eq, decide_eq_true_eq] at hadm
    obtain ⟨⟨hp, hv⟩, hc⟩ := hadm
    exact (decodeCode_kwkwk hp hlo hc).trans (if_pos hv)
  | kwkwkNoprev c =>
    simp only [Ctx.admits, Bool.and_eq_true, beq_iff_eq, decide_eq_true_eq, Bool.not_eq_true'] at hadm
    obtain ⟨⟨hp, hv⟩, hc⟩ := hadm
    exact (decodeCode_kwkwk hp hlo hc).trans (if_neg (by simp [hv]))
  | beyond c =>
    simp only [Ctx.admits, Bool.and_eq_true, beq_iff_eq, decide_eq_true_eq] at hadm
    obtain ⟨hp, hc⟩ := hadm
    exact decodeCode_beyond hp hlo hc

/-! ## Encoding a decoded form -/

/-- The instruction stands for the form in that state: it encodes to the form, is well formed, and the state admits it. -/
def Stands (x : Ctx) (e : Encoded) (i : Instr) : Prop := encode i = e ∧ WellFormed i ∧ x.admits i = true

theorem stands_ite {x : Ctx} {e : Encoded} {p : Prop} [Decidable p] {i j : Instr} (hi : p → Stands x e i)
    (hj : ¬p → Stands x e j) : Stands x e (if p then i else j) := by
  split
  · exact hi ‹_›
  · exact hj ‹_›

/-- The three ranges of unmapped offsets (R92). -/
theorem stands_unmapped {x : Ctx} {e : Encoded} {off : BitVec 8} {i j k : Instr} (hu : Unmapped off)
    (hi : (off &&& 0x43#8 == 0x40#8) = true → Stands x e i) (hj : (off &&& 0xC3#8 == 0x80#8) = true → Stands x e j)
    (hk : (off &&& 0xF3#8 == 0x30#8) = true → Stands x e k) :
    Stands x e (if off.getLsbD 6 then i else if off.getLsbD 7 then j else k) := by
  refine stands_ite (fun h6 => hi ((unmapped40_iff off).2 ⟨hu, h6⟩)) fun h6 => ?_
  rw [Bool.not_eq_true] at h6
  exact stands_ite (fun h7 => hj ((unmapped80_iff off).2 ⟨hu, h6, h7⟩))
    fun h7 => hk ((unmapped30_iff off).2 ⟨hu, h6, Bool.eq_false_iff.2 h7⟩)

/-- The CTRL write with the commands and the ignored bits of the data is the write of that data. -/
theorem ctrlWord_of_bits {d : Word} {abort start : Bool} (h1 : d.getLsbD 1 = abort) (h0 : d.getLsbD 0 = start) :
    Encoded.hbus 32 (ctrlWord (d.extractLsb' 2 30) (BitVec.ofBool abort ++ BitVec.ofBool start)) =
      .hbus 32 (hbusWord true 0#8 d) := by
  rw [ctrlWord, ← h1, ← h0, ctrl_fields]

section
variable (x : Ctx) (d : Word)

theorem decodeCtrl_stands : Stands x (.hbus 32 (hbusWord true 0#8 d)) (decodeCtrl x.busy d) := by
  unfold decodeCtrl
  refine stands_ite (fun h1 => ?_) fun h1 => stands_ite (fun h0 => ?_) fun h0 => ?_
  · have he := ctrlWord_of_bits h1 rfl
    exact ⟨he, rfl, rfl⟩
  · have he := ctrlWord_of_bits (Bool.eq_false_iff.2 h1) h0
    exact stands_ite (fun hb => ⟨he, rfl, hb⟩) fun hb => ⟨he, rfl, by simpa [Ctx.admits] using hb⟩
  · have he := ctrlWord_of_bits (Bool.eq_false_iff.2 h1) (Bool.eq_false_iff.2 h0)
    exact ⟨he, rfl, rfl⟩

variable {off : BitVec 8} (h0 : off.getLsbD 0 = false) (h1 : off.getLsbD 1 = false)
include h0 h1

theorem decodeRead_stands : Stands x (.hbus 32 (hbusWord false off d)) (decodeRead off d) := by
  by_cases hm : off ∈ registerOffsets
  · simp only [registerOffsets, List.mem_cons, List.not_mem_nil, or_false] at hm
    obtain rfl | rfl | rfl | rfl | rfl | rfl | rfl | rfl | rfl | rfl | rfl | rfl := hm
    all_goals exact ⟨rfl, rfl, rfl⟩
  · rw [decodeRead_unmapped hm]
    exact stands_unmapped ⟨h0, h1, hm⟩ (fun h => ⟨rfl, h, rfl⟩) (fun h => ⟨rfl, h, rfl⟩) fun h => ⟨rfl, h, rfl⟩

theorem decodeWrite_stands : Stands x (.hbus 32 (hbusWord true off d)) (decodeWrite x.busy off d) := by
  by_cases hm : off ∈ registerOffsets
  · simp only [registerOffsets, List.mem_cons, List.not_mem_nil, or_false] at hm
    obtain rfl | rfl | rfl | rfl | rfl | rfl | rfl | rfl | rfl | rfl | rfl | rfl := hm
    · exact decodeCtrl_stands x d
    all_goals exact ⟨rfl, rfl, rfl⟩
  · rw [decodeWrite_unmapped hm]
    exact stands_unmapped ⟨h0, h1, hm⟩ (fun h => ⟨rfl, h, rfl⟩) (fun h => ⟨rfl, h, rfl⟩) fun h => ⟨rfl, h, rfl⟩

end

theorem decodeHbus_stands (x : Ctx) (bits : Nat) (w : HbusWord) : Stands x (.hbus bits w) (decodeHbus x.busy bits w) := by
  unfold decodeHbus
  refine stands_ite (fun h => ⟨rfl, by simp [WellFormed, Instr.wf, h], rfl⟩) fun h => ?_
  obtain rfl : bits = 32 := not_not.1 h
  refine stands_ite (fun h0 => ⟨rfl, by simp only [WellFormed, Instr.wf, h0, Bool.or_true], rfl⟩) fun h0 => ?_
  rw [Bool.not_eq_true] at h0
  refine stands_ite (fun h1 => ⟨rfl, by simp only [WellFormed, Instr.wf, h0, h1, Bool.not_false, Bool.and_true], rfl⟩)
    fun h1 => ?_
  rw [Bool.not_eq_true] at h1
  have hw := hbusWord_fields w
  rw [← hbusOff_getLsbD_zero] at h0
  rw [← hbusOff_getLsbD_one] at h1
  refine stands_ite (fun hwe => ?_) fun hwe => ?_
  · have h := decodeWrite_stands x (hbusData w) h0 h1
    rwa [← hwe, hw] at h
  · have h := decodeRead_stands x (hbusData w) h0 h1
    rwa [← Bool.eq_false_iff.2 hwe, hw] at h

section
variable {x : Ctx} {c : Code} {m : MinCode}

theorem firstClearRow_stands (h : x.codes.checkAt m = true) (hc : c.toNat = rootSize m) :
    Stands x (.code c) (firstClearRow m) := by
  obtain rfl : c = BitVec.ofNat 12 (rootSize m) := BitVec.eq_of_toNat_eq (hc.trans (clearCode_toNat m).symm)
  cases m <;> exact ⟨rfl, rfl, h⟩

theorem clearRow_stands (h : x.codes.loopAt m = true) (hc : c.toNat = rootSize m) : Stands x (.code c) (clearRow m) := by
  obtain rfl : c = BitVec.ofNat 12 (rootSize m) := BitVec.eq_of_toNat_eq (hc.trans (clearCode_toNat m).symm)
  cases m <;> exact ⟨rfl, rfl, h⟩

theorem endRow_stands (h : x.codes.loopAt m = true) (hc : c.toNat = rootSize m + 1) : Stands x (.code c) (endRow m) := by
  obtain rfl : c = BitVec.ofNat 12 (rootSize m + 1) := BitVec.eq_of_toNat_eq (hc.trans (endCode_toNat m).symm)
  cases m <;> exact ⟨rfl, rfl, h⟩

variable (hc : c.toNat < rootSize m)
include hc

theorem litNoprevRow_stands (h : (x.codes.loopAt m && !x.codes.prevValid) = true) :
    Stands x (.code c) (litNoprevRow c m) := by
  have he := congrArg Encoded.code (setWidth_setWidth_of_lt hc)
  cases m <;> exact ⟨he, rfl, h⟩

theorem litRow_stands (h : (x.codes.loopAt m && x.codes.prevValid && decide (x.codes.nextCode < Config.tableSize)) = true) :
    Stands x (.code c) (litRow c m) := by
  have he := congrArg Encoded.code (setWidth_setWidth_of_lt hc)
  cases m <;> exact ⟨he, rfl, h⟩

theorem litFullRow_stands
    (h : (x.codes.loopAt m && x.codes.prevValid && decide (x.codes.nextCode = Config.tableSize)) = true) :
    Stands x (.code c) (litFullRow c m) := by
  have he := congrArg Encoded.code (setWidth_setWidth_of_lt hc)
  cases m <;> exact ⟨he, rfl, h⟩

end

/-- ROOT_SIZE is at least 4 (R33). -/
theorem four_le_rootSize (m : MinCode) : 4 ≤ rootSize m := by cases m <;> decide

/-- Where a code lies in LOOP (R84). -/
theorem code_cases {root next : Nat} (c : Nat) : root + 2 ≤ next →
    c = root ∨ c = root + 1 ∨ c < root ∨ (root + 2 ≤ c ∧ c < next) ∨ c = next ∨ next < c := by
  omega

theorem decodeCode_first_stands {x : Ctx} (c : Code) (hp : x.codes.phase = .first) :
    Stands x (.code c) (decodeCode x.codes c) := by
  rw [decodeCode_first hp]
  refine stands_ite (fun hf => ⟨rfl, rfl, by simp [Ctx.admits, hp, hf]⟩) fun hf => ?_
  rw [Bool.not_eq_false] at hf
  exact stands_ite (fun hc => firstClearRow_stands (checkAt_iff.2 ⟨hp, hf, rfl⟩) hc)
    fun hc => ⟨rfl, rfl, by simp [Ctx.admits, hp, hf, hc]⟩

theorem decodeCode_loop_stands {x : Ctx} (c : Code) (hp : x.codes.phase = .loop)
    (hlo : rootSize x.codes.minCode + 2 ≤ x.codes.nextCode) (hhi : x.codes.nextCode ≤ 4096) :
    Stands x (.code c) (decodeCode x.codes c) := by
  have hm : x.codes.loopAt x.codes.minCode = true := loopAt_iff.2 ⟨hp, rfl⟩
  have h4 := four_le_rootSize x.codes.minCode
  obtain hc | hc | hc | ⟨hc, hn⟩ | hc | hc := code_cases c.toNat hlo
  · rw [decodeCode_clear hp hc]
    exact clearRow_stands hm hc
  · rw [decodeCode_end hp hc]
    exact endRow_stands hm hc
  · rw [decodeCode_lit hp hc]
    refine stands_ite (fun hv => litNoprevRow_stands hc (by simp [hm, hv])) fun hv => ?_
    rw [Bool.not_eq_false] at hv
    refine stands_ite (fun hroom => litRow_stands hc (by simp [hm, hv, hroom])) fun hfull => litFullRow_stands hc ?_
    have hnext : x.codes.nextCode = 4096 := by omega
    simp [hm, hv, hnext]
  · rw [decodeCode_dict hp hc hn]
    have hd : x.codes.dynamic c = true := dynamic_iff.2 ⟨hp, hc, hn⟩
    have hwf : 6 ≤ c.toNat := by omega
    refine stands_ite (fun hv => ⟨rfl, by simpa [WellFormed, Instr.wf], by simp [Ctx.admits, hd, hv]⟩) fun hv => ?_
    rw [Bool.not_eq_false] at hv
    refine stands_ite (fun hroom => ⟨rfl, ?_, by simp [Ctx.admits, hd, hv, hroom]⟩)
      fun hfull => ⟨rfl, by simpa [WellFormed, Instr.wf], ?_⟩
    · have hlt : c.toNat < 4095 := by omega
      simp [WellFormed, Instr.wf, hwf, hlt]
    · have hnext : x.codes.nextCode = 4096 := by omega
      simp [Ctx.admits, hd, hv, hnext]
  · rw [decodeCode_kwkwk hp hlo hc]
    have hwf : 6 ≤ c.toNat := by omega
    exact stands_ite (fun hv => ⟨rfl, by simpa [WellFormed, Instr.wf], by simp [Ctx.admits, hp, hv, hc]⟩)
      fun hv => ⟨rfl, by simpa [WellFormed, Instr.wf], by simp [Ctx.admits, hp, hv, hc]⟩
  · rw [decodeCode_beyond hp hlo hc]
    have hwf : 7 ≤ c.toNat := by omega
    exact ⟨rfl, by simpa [WellFormed, Instr.wf], by simp [Ctx.admits, hp, hc]⟩

/-- Settles O7: each branch of the decoder gives the row's bits and the row's condition, and its operands are the form's other bits. -/
theorem encodeOfDecode : Obligations.EncodeOfDecode := by
  intro x e hlo hhi
  cases e with
  | hbus bits w => exact decodeHbus_stands x bits w
  | code c =>
    cases hp : x.codes.phase with
    | first => exact decodeCode_first_stands c hp
    | loop => exact decodeCode_loop_stands c hp hlo hhi
  | noCode => exact ⟨rfl, rfl, rfl⟩

/-! ## The classes partition the codes (R84, R85) -/

/-- The class of a code in FIRST, with what chooses it. -/
theorem first_class_cases {x : CodeCtx} (c : Code) (hp : x.phase = .first) :
    (classOf (decodeCode x c) = some .first ∧ x.firstCheck = false) ∨
    (classOf (decodeCode x c) = some .firstClear ∧ x.firstCheck = true ∧ c.toNat = rootSize x.minCode) ∨
    (classOf (decodeCode x c) = some .firstBad ∧ x.firstCheck = true ∧ c.toNat ≠ rootSize x.minCode) := by
  rw [decodeCode_first hp]
  by_cases hf : x.firstCheck = false
  · exact .inl ⟨by rw [if_pos hf]; rfl, hf⟩
  by_cases hc : c.toNat = rootSize x.minCode
  · exact .inr (.inl ⟨by rw [if_neg hf, if_pos hc, classOf_firstClearRow], by simpa using hf, hc⟩)
  · exact .inr (.inr ⟨by rw [if_neg hf, if_neg hc]; rfl, by simpa using hf, hc⟩)

/-- Settles O57: the three conditions exclude each other. -/
theorem firstClassesPartitionTheCodes : Obligations.FirstClassesPartitionTheCodes := by
  intro x c hp
  obtain ⟨hk, hf⟩ | ⟨hk, hf, hc⟩ | ⟨hk, hf, hc⟩ := first_class_cases c hp
  · simp [hk, hf]
  · simp [hk, hf, hc]
  · simp [hk, hf, hc]

section
variable {x : CodeCtx} {c : Code} (hp : x.phase = .loop)
include hp

theorem classOf_lit (hc : c.toNat < rootSize x.minCode) : classOf (decodeCode x c) = some .lit := by
  rw [decodeCode_lit hp hc]
  split_ifs
  · exact classOf_litNoprevRow c _
  · exact classOf_litRow c _
  · exact classOf_litFullRow c _

theorem classOf_dict (hc : rootSize x.minCode + 2 ≤ c.toNat) (hn : c.toNat < x.nextCode) :
    classOf (decodeCode x c) = some .dict := by
  rw [decodeCode_dict hp hc hn]
  split_ifs <;> rfl

theorem classOf_kwkwk (hr : rootSize x.minCode + 2 ≤ x.nextCode) (hc : c.toNat = x.nextCode) :
    classOf (decodeCode x c) = some .kwkwk := by
  rw [decodeCode_kwkwk hp hr hc]
  split_ifs <;> rfl

end

/-- Settles O8: the class of the code is known from where its value lies, and the six places exclude each other. -/
theorem loopClassesPartitionTheCodes : Obligations.LoopClassesPartitionTheCodes := by
  intro x c hp hr
  obtain hc | hc | hc | ⟨hc, hn⟩ | hc | hc := code_cases c.toNat hr
  · have hk : classOf (decodeCode x c) = some .clear := by rw [decodeCode_clear hp hc, classOf_clearRow]
    grind
  · have hk : classOf (decodeCode x c) = some .endMark := by rw [decodeCode_end hp hc, classOf_endRow]
    grind
  · have hk := classOf_lit hp hc
    grind
  · have hk := classOf_dict hp hc hn
    grind
  · have hk := classOf_kwkwk hp hr hc
    grind
  · have hk : classOf (decodeCode x c) = some .beyond := by rw [decodeCode_beyond hp hr hc]; rfl
    grind

/-! ## Sample words -/

/-- Settles O9: the decoder evaluates on each word. -/
theorem sampleWordsDecode : Obligations.SampleWordsDecode := by
  unfold Obligations.SampleWordsDecode
  decide

/-! ## The bits of a code (R80, R81) -/

/-- The cursor's registers hold fewer than 2^35 positions (R29). -/
theorem cursor_lt (b : Block) : cursor b < 2 ^ 35 := by
  have := b.byteIndex.isLt
  have := b.bitIndex.isLt
  unfold cursor
  omega

/-- Where CODE_WIDTH bits remain, the code ends at a position the cursor can hold. -/
theorem codeEnd_lt {b : Block} (h : b.codeWidth.toNat ≤ avail b) : cursor b + b.codeWidth.toNat < 2 ^ 35 := by
  have := cursor_lt b
  have := inLen_lt b
  unfold avail at h
  omega

/-- Settles O15: the bits ReadBits returns are stream bits, and CODE_WIDTH is at most 12. -/
theorem codeBitsAreStreamBits : Obligations.CodeBitsAreStreamBits := by
  intro s k hw ha hch
  have hbit := readBits_testBit s.blk.codeWidth.toNat s (codeEnd_lt ha) hch k
  rw [codeAtCursor, BitVec.getLsbD_ofNat, hbit]
  by_cases hk : k < s.blk.codeWidth.toNat
  · have hk12 : k < 12 := by omega
    simp [hk, hk12, streamBit]
  · simp [hk]

/-! ## A word of the opcode table placed after reset (log 2) -/

/-- Where CODE_WIDTH bits remain, the engine's turn in BUSY runs the class of the code at the cursor (R150). -/
theorem engineTurn_of_code {s : State} {x : CodeCtx} (hb : s.blk.state = .busy) (hx : codeCtx s.blk = some x)
    (ha : s.blk.codeWidth.toNat ≤ avail s.blk) : engineTurn s = exec (decodeCode x (codeAtCursor s)) s := by
  rw [engineTurn_eq hb hx, if_neg (Nat.not_lt.2 ha), exec_decodeCode]

/-- Where fewer bits remain, the engine's turn in BUSY runs EOD (R136). -/
theorem engineTurn_of_end {s : State} (hb : isBusy s.blk = true) (ha : avail s.blk < s.blk.codeWidth.toNat) :
    engineTurn s = exec .eod s := by
  simp only [engineTurn, hb, if_true, fetchCode, if_pos ha]

theorem codeAtCursor_withPending (es : List Event) (s : State) : codeAtCursor (withPending es s) = codeAtCursor s := by
  rw [codeAtCursor, readBits_withPending]
  rfl

section
variable {c : Nat}

/-- A code up to END is a root code, CLEAR or END of the minimum code size the table's state has. -/
theorem lt_rootSize_tableMinCode (h : c < 258) : c < rootSize (tableMinCode c) + 2 := by
  unfold tableMinCode
  split_ifs
  all_goals simp only [rootSize, minCodeNat]; omega

theorem rootSize_le (m : MinCode) : rootSize m ≤ 256 := by cases m <;> decide

/-- NEXT_CODE in the table's state is above a code up to END, and one short of a full table for any other. -/
theorem tableNextCode_cases (c : Nat) : (c < tableNextCode c ∧ tableNextCode c ≤ 258) ∨ tableNextCode c = 4095 := by
  unfold tableNextCode
  split_ifs with h
  · exact .inl ⟨lt_rootSize_tableMinCode h, Nat.add_le_add_right (rootSize_le _) 2⟩
  · exact .inr rfl

/-- The code fits the CODE_WIDTH of R160 in the table's state. -/
theorem lt_two_pow_tableWidth (h : c < 4096) : c < 2 ^ min 12 (bitLen (tableNextCode c)) := by
  have hnext : tableNextCode c < 2 ^ bitLen (tableNextCode c) := bitLen_le_iff.1 (Nat.le_refl _)
  obtain hw | hw := Nat.le_total 12 (bitLen (tableNextCode c))
  · rw [Nat.min_eq_left hw]
    exact h
  · rw [Nat.min_eq_right hw]
    obtain ⟨hc, -⟩ | hfull := tableNextCode_cases c
    · exact hc.trans hnext
    · omega

variable (c)

theorem placeCode_codeWidth (s : State) : (placeCode c s).blk.codeWidth.toNat = min 12 (bitLen (tableNextCode c)) := by
  refine Nat.mod_eq_of_lt ?_
  exact Nat.lt_of_le_of_lt (Nat.min_le_left _ _) (by decide)

/-- Two bytes of IN hold the whole code. -/
theorem placeCode_avail : (placeCode c .reset).blk.codeWidth.toNat ≤ avail (placeCode c .reset).blk := by
  have havail : avail (placeCode c .reset).blk = 16 := rfl
  have := placeCode_codeWidth c .reset
  omega

/-- The decoder reads the table's state in the state placed after reset. -/
theorem codeCtx_placeCode_reset : codeCtx (placeCode c .reset).blk = some (tableCtx c).codes := by
  have hm : minCodeOfNat (minCodeSize (placeCode c .reset).blk) = some (tableMinCode c) := by
    simp only [placeCode, minCodeSize]
    cases tableMinCode c <;> rfl
  have hf : firstCheck (placeCode c .reset).blk = false := by
    simp only [placeCode, firstCheck]
    cases tableMinCode c <;> rfl
  have hn : (placeCode c .reset).blk.nextCode.toNat = tableNextCode c := by
    obtain ⟨-, h⟩ | h := tableNextCode_cases c
    · exact Nat.mod_eq_of_lt (by omega)
    · exact Nat.mod_eq_of_lt (by omega)
  simp only [codeCtx, hm, hf, hn]
  rfl

/-- The first two bytes of IN are the placed code's. -/
theorem placeCode_streamBit {k : Nat} (hk : k < 16) : streamBit (placeCode c .reset).input k = c.testBit k := by
  have h0 := Memory.write_wf Memory.reset_wf 0 (BitVec.ofNat 8 c)
  obtain hk8 | hk8 := Nat.lt_or_ge k 8
  · have hread : Memory.read (placeCode c .reset).input (k / 8) = BitVec.ofNat 8 c := by
      rw [Nat.div_eq_of_lt hk8]
      exact (Memory.read_write_other 1 0 _ (by decide)).trans (Memory.read_write_same Memory.reset_wf 0 _)
    rw [streamBit, hread, Nat.mod_eq_of_lt hk8, BitVec.getLsbD_ofNat]
    simp [hk8]
  · have hread : Memory.read (placeCode c .reset).input (k / 8) = BitVec.ofNat 8 (c / 256) := by
      rw [show k / 8 = 1 by omega]
      exact Memory.read_write_same h0 1 _
    have hk' : k % 8 = k - 8 := by omega
    have hk1 : k - 8 < 8 := by omega
    rw [streamBit, hread, hk', BitVec.getLsbD_ofNat]
    simp only [hk1, decide_true, Bool.true_and]
    rw [show c / 256 = c / 2 ^ 8 from rfl, Nat.testBit_div_two_pow]
    congr 1
    omega

/-- The code at the cursor of the placed state is the code placed. -/
theorem codeAtCursor_placeCode_reset (h : c < 4096) : codeAtCursor (placeCode c .reset) = BitVec.ofNat 12 c := by
  have hw := placeCode_codeWidth c .reset
  have hlt := lt_two_pow_tableWidth h
  rw [← hw] at hlt
  refine BitVec.eq_of_getLsbD_eq fun k hk => ?_
  have hcur : cursor (placeCode c .reset).blk = 0 := rfl
  have hbit := codeBitsAreStreamBits (placeCode c .reset) k (by omega) (placeCode_avail c) nofun
  rw [hbit, hcur, Nat.zero_add]
  change (_ && streamBit _ k) = _
  rw [placeCode_streamBit c (by omega), BitVec.getLsbD_ofNat]
  by_cases hkw : k < (placeCode c .reset).blk.codeWidth.toNat
  · simp [hkw, hk]
  · have : c.testBit k = false := Nat.testBit_lt_two_pow (hlt.trans_le (Nat.pow_le_pow_right (by decide) (by omega)))
    simp [this]

end

/-- What a word of the opcode table is: the end of the data, a code of 12 bits, or a 32-bit host transaction. -/
theorem tableEncoded_cases {nbits w : Nat} {e : Encoded} (h : tableEncoded nbits w = .ok e) :
    e = .noCode ∨ (w < 4096 ∧ e = .code (BitVec.ofNat 12 w)) ∨ ∃ v, e = .hbus 32 v := by
  unfold tableEncoded at h
  split_ifs at h with _ _ _ hw
  · cases h; exact .inl rfl
  · cases h; exact .inr (.inl ⟨hw, rfl⟩)
  · cases h; exact .inr (.inr ⟨_, rfl⟩)

/-- A form placed after reset runs as the table's state decodes it. -/
theorem step_placeEncoded_reset {nbits w : Nat} {e : Encoded} (h : tableEncoded nbits w = .ok e) :
    step (placeEncoded e .reset) = exec (decode (tableCtx w) e) (withPending [] (placeEncoded e .reset)) := by
  obtain rfl | ⟨hw, rfl⟩ | ⟨v, rfl⟩ := tableEncoded_cases h
  · exact (step_engine rfl).trans (engineTurn_of_end (s := withPending [] (placeEnd .reset)) rfl (by decide))
  · have hc : (BitVec.ofNat 12 w).toNat = w := Nat.mod_eq_of_lt hw
    have hturn := engineTurn_of_code (s := withPending [] (placeCode w .reset)) rfl (codeCtx_placeCode_reset w)
      (placeCode_avail w)
    rw [codeAtCursor_withPending, codeAtCursor_placeCode_reset w hw] at hturn
    simp only [placeEncoded, hc]
    exact (step_engine rfl).trans hturn
  · exact step_host rfl

/-- Settles O13: a word of the table is one of three forms, and each, placed after reset, is what the next agent runs. -/
theorem tableWordRunsAfterReset : Obligations.TableWordRunsAfterReset := by
  intro nbits w i hi
  unfold decodeTableWord at hi
  unfold State.withFetchWord
  cases he : tableEncoded nbits w with
  | ok e =>
    simp only [he] at hi ⊢
    cases hi
    exact step_placeEncoded_reset he
  | error r => simp only [he] at hi; cases hi

end Sys2Proof.Machine
end

section
/-! PROOFS. The bit reader of 40_lsb_bit_reader.md: ReadBits in closed form, and the bytes of IN that no read reaches. -/

namespace Sys2Proof.Machine

open Sys2Proof

/-! ## ReadBits in closed form (R113) -/

/-- Bit p of IN as one number is stream bit p. -/
theorem littleEndian_testBit_streamBit {m : Memory} {n p : Nat} (h : p < 8 * n) :
    (littleEndian m 0 n).testBit p = streamBit m p := by
  simp [littleEndian_testBit, streamBit, h]

/-- Settles O14: bit k on either side is stream bit P + k below n, and 0 from n on. -/
theorem readBitsClosedForm : Obligations.ReadBitsClosedForm := by
  intro s n hn hch
  have hend : cursor s.blk + n < 2 ^ 35 := by
    have := inLen_lt s.blk
    omega
  refine ⟨Nat.eq_of_testBit_eq fun k => ?_, readBits_cursor hend⟩
  rw [readBits_testBit n s hend hch, Nat.testBit_mod_two_pow, Nat.testBit_div_two_pow, Nat.add_comm k]
  by_cases hk : k < n
  · rw [littleEndian_testBit_streamBit (by omega)]
  · simp [hk]

/-! ## Other bytes in IN, the same below IN_LEN (R116) -/

section
variable (m : Memory) (s : State)

@[simp] theorem withInput_blk : (withInput m s).blk = s.blk := rfl
@[simp] theorem withInput_sinkAccepts : (withInput m s).sinkAccepts = s.sinkAccepts := rfl

@[simp] theorem emitAll_withInput (xs : List Index) : emitAll xs (withInput m s) = withInput m (emitAll xs s) := by
  simp only [emitAll_eq]
  rfl

theorem execEod_withInput : execEod (withInput m s) = mapNext (withInput m) (execEod s) := by
  unfold execEod
  rw [withInput_blk]
  split <;> rfl

end

section
variable {m : Memory} {s : State}

/-- A read of one byte looks at no other byte of IN. -/
theorem memRead_withInput {a : Nat} (h : Memory.read m a = Memory.read s.input a) :
    memRead a (withInput m s) = ((memRead a s).1, withInput m (memRead a s).2) := by
  by_cases ha : a ∈ s.changed
  · rw [memRead_of_changed ha, memRead_of_changed (s := withInput m s) ha]
    rfl
  · rw [memRead_exact ha, memRead_exact (s := withInput m s) ha]
    exact congrArg (·, withInput m s) h

theorem readBit_withInput (h : Memory.read m s.blk.byteIndex.toNat = Memory.read s.input s.blk.byteIndex.toNat) :
    readBit (withInput m s) = ((readBit s).1, withInput m (readBit s).2) := by
  simp only [readBit, withInput_blk, memRead_withInput h]
  rfl

/-- Bits that end within the first `len` bytes of IN are read alike where those bytes are alike. -/
theorem readBits_withInput {n len : Nat} (hend : cursor s.blk + n ≤ 8 * len) (hlen : 8 * len < 2 ^ 35)
    (h : ∀ a < len, Memory.read m a = Memory.read s.input a) :
    readBits n (withInput m s) = ((readBits n s).1, withInput m (readBits n s).2) := by
  induction n generalizing s with
  | zero => rfl
  | succ n ih =>
    have hbyte : s.blk.byteIndex.toNat < len := by
      unfold cursor at hend
      omega
    have hcur : cursor (readBit s).2.blk = cursor s.blk + 1 := readBit_cursor (by omega)
    have hin : (readBit s).2.input = s.input := by rw [readBit_frame s]
    simp only [readBits, readBit_withInput (h _ hbyte), ih (s := (readBit s).2) (by omega) (by rwa [hin])]

end

section
variable {m : Memory} {s : State} (ha : s.blk.codeWidth.toNat ≤ avail s.blk)
  (h : ∀ a < s.blk.inLen.toNat, Memory.read m a = Memory.read s.input a)
include ha h

/-- Where CODE_WIDTH bits remain, no bit of the code stands at or above IN_LEN (R114). -/
theorem readCode_withInput : readBits s.blk.codeWidth.toNat (withInput m s) =
    ((readBits s.blk.codeWidth.toNat s).1, withInput m (readBits s.blk.codeWidth.toNat s).2) := by
  have hlen := inLen_lt s.blk
  obtain h0 | hpos := Nat.eq_zero_or_pos s.blk.codeWidth.toNat
  · rw [h0]
    rfl
  · unfold avail at ha
    exact readBits_withInput (by omega) (by omega) h

theorem codeAtCursor_withInput : codeAtCursor (withInput m s) = codeAtCursor s := by
  rw [codeAtCursor, withInput_blk, readCode_withInput ha h]
  rfl

theorem codeRead_withInput : codeRead (withInput m s) = withInput m (codeRead s) := by
  rw [codeRead, withInput_blk, readCode_withInput ha h]
  rfl

end

section
variable {m : Memory} {s : State} (h : codeRead (withInput m s) = withInput m (codeRead s))
include h

theorem acceptFirst_withInput : acceptFirst (withInput m s) = withInput m (acceptFirst s) := by
  simp only [acceptFirst, h]
  rfl

theorem clearTable_withInput : clearTable (withInput m s) = withInput m (clearTable s) := by
  simp only [clearTable, h]
  rfl

theorem endDecode_withInput : endDecode (withInput m s) = withInput m (endDecode s) := by
  simp only [endDecode, h]
  rfl

theorem raise_withInput (e : ErrKind) (d : BitVec 4) (c : Code) :
    raise e d c (withInput m s) = withInput m (raise e d c s) := by
  simp only [raise, h]
  rfl

theorem presentNoPrev_withInput (c : Code) :
    presentNoPrev c (withInput m s) = mapNext (withInput m) (presentNoPrev c s) := by
  simp only [presentNoPrev, withInput_blk, withInput_sinkAccepts, h, emitAll_withInput]
  split
  · split <;> rfl
  · rfl

theorem presentRegister_withInput (c : Code) :
    presentRegister c (withInput m s) = mapNext (withInput m) (presentRegister c s) := by
  simp only [presentRegister, withInput_blk, withInput_sinkAccepts, h, emitAll_withInput]
  split
  · split <;> rfl
  · rfl

theorem execKwkwk_withInput (c : Code) :
    execKwkwk c (withInput m s) = mapNext (withInput m) (execKwkwk c s) := by
  simp only [execKwkwk, withInput_blk, withInput_sinkAccepts, h, emitAll_withInput]
  split
  · split <;> rfl
  · rfl

/-- The operation of a code's class reads IN only where it reads the code. -/
theorem classStep_withInput (x : CodeCtx) (c : Code) :
    classStep x c (withInput m s) = mapNext (withInput m) (classStep x c s) := by
  simp only [classStep, acceptFirst_withInput h, clearTable_withInput h, endDecode_withInput h, raise_withInput h,
    presentNoPrev_withInput h, presentRegister_withInput h, presentFull, execKwkwk_withInput h]
  cases x.phase with
  | first => dsimp only; split_ifs <;> rfl
  | loop => dsimp only; split_ifs <;> rfl

end

/-- The engine's turn with other bytes in IN, the same below IN_LEN. -/
theorem engineTurn_withInput {m : Memory} {s : State}
    (h : ∀ a < s.blk.inLen.toNat, Memory.read m a = Memory.read s.input a) :
    engineTurn (withInput m s) = mapNext (withInput m) (engineTurn s) := by
  by_cases hb : s.blk.state = .busy
  · by_cases ha : avail s.blk < s.blk.codeWidth.toNat
    · have hb' : isBusy s.blk = true := by simp [isBusy, hb]
      rw [engineTurn_of_end hb' ha, engineTurn_of_end (s := withInput m s) hb' ha]
      exact execEod_withInput m s
    rw [Nat.not_lt] at ha
    cases hx : codeCtx s.blk with
    | none =>
      rw [engineTurn_of_no_codeCtx hb hx, engineTurn_of_no_codeCtx (s := withInput m s) hb hx, withInput_blk,
        if_neg (Nat.not_lt.2 ha), if_neg (Nat.not_lt.2 ha)]
      rfl
    | some x =>
      rw [engineTurn_of_code hb hx ha, engineTurn_of_code (s := withInput m s) hb hx ha, codeAtCursor_withInput ha h,
        exec_decodeCode, exec_decodeCode]
      exact classStep_withInput (codeRead_withInput ha h) x _
  · rw [engineTurn_of_not_busy hb, engineTurn_of_not_busy (s := withInput m s) hb]
    rfl

/-- Settles O19: a store at or above IN_LEN leaves every byte below it. -/
theorem bytesBeyondInLenDoNotMatter : Obligations.BytesBeyondInLenDoNotMatter :=
  fun _ a v ha => engineTurn_withInput fun a' ha' => Memory.read_write_other a a' v (ha'.trans_le ha).ne

end Sys2Proof.Machine
end

section
/-! PROOFS. The decoder of 41_lzw_decoder.md: what each code step writes, the invariant over every step, and what holds of a running
decode. -/

namespace Sys2Proof.Machine

open Sys2Proof

/-! ## The engine's turn of a step (R135) -/

/-- The engine has the turn where its event comes next and where no event is listed. -/
theorem step_of_engine_turn {s : State} {es : List Event} (hp : s.pending = .engine :: es ∨ (s.pending = [] ∧ es = [])) :
    step s = engineTurn (withPending es s) := by
  obtain hp | ⟨hp, rfl⟩ := hp
  · exact step_engine hp
  · rw [step_nil hp]
    exact congrArg engineTurn (show s = { s with pending := [] } by rw [← hp])

/-- Settles O11: the turn is the engine's, and it runs EOD or the class of the code at the cursor. -/
theorem stepRunsTheCodeAtTheCursor : Obligations.StepRunsTheCodeAtTheCursor := by
  intro s es x hp hb hx
  rw [step_of_engine_turn hp]
  split
  · next ha => exact engineTurn_of_end (s := withPending es s) (by simp [isBusy, hb]) ha
  · next ha =>
    rw [engineTurn_of_code (s := withPending es s) hb hx (Nat.not_lt.1 ha), codeAtCursor_withPending]

/-- Settles O12: the turn is the engine's, and outside BUSY it changes nothing. -/
theorem engineRestsOutsideBusy : Obligations.EngineRestsOutsideBusy := by
  intro s es hp hb
  rw [step_of_engine_turn hp, engineTurn_of_not_busy (s := withPending es s) hb]

/-! ## The rows of one rule have one meaning

One case per constructor: a row of the group has the group's meaning, and any other row contradicts the hypothesis. -/

section
variable {i : Instr} (s : State)

theorem exec_of_firstAccepted (h : firstAccepted i = true) : exec i s = .next (acceptFirst s) := by
  cases i <;> cases h <;> rfl

theorem exec_of_isClear (h : isClear i = true) : exec i s = .next (clearTable s) := by
  cases i <;> cases h <;> rfl

theorem exec_of_isEnd (h : isEnd i = true) : exec i s = .next (endDecode s) := by
  cases i <;> cases h <;> rfl

theorem exec_of_noPrevCode {c : Code} (h : noPrevCode i = some c) : exec i s = presentNoPrev c s := by
  cases i <;> cases h <;> rfl

theorem exec_of_registerCode {c : Code} (h : registerCode i = some c) : exec i s = presentRegister c s := by
  cases i <;> cases h <;> rfl

theorem exec_of_fullCode {c : Code} (h : fullCode i = some c) : exec i s = .next (raise .protocolError 2 c s) := by
  cases i <;> cases h <;> rfl

theorem exec_of_codeError {k : ErrKind} {d : BitVec 4} {c : Code} (h : codeError i = some (k, d, c)) :
    exec i s = .next (raise k d c s) := by
  unfold codeError at h
  split at h
  · cases h; rfl
  · cases h; rfl
  · cases h; rfl
  · obtain ⟨c', hc', he⟩ := Option.map_eq_some_iff.1 h
    cases he
    exact exec_of_fullCode s hc'

end

/-! ## What a code step writes, field by field -/

/-- An accepted first code writes PHASE and the cursor (R137, R138). -/
theorem acceptFirst_eq (s : State) : acceptFirst s =
    { s with
      blk := { s.blk with
        phase := .loop, byteIndex := (codeRead s).blk.byteIndex, bitIndex := (codeRead s).blk.bitIndex }
      draws := (codeRead s).draws } := by
  simp only [acceptFirst]
  rw [codeRead_frame s]

/-- CLEAR writes T, NEXT_CODE, CODE_WIDTH, PREV_VALID and the cursor (R139). -/
theorem clearTable_eq (s : State) : clearTable s =
    { s with
      blk := { freshTable s.blk with
        byteIndex := (codeRead s).blk.byteIndex, bitIndex := (codeRead s).blk.bitIndex, prevValid := false }
      draws := (codeRead s).draws } := by
  rw [← clearTable_blk]
  simp only [clearTable]
  rw [codeRead_frame s]

/-- END writes STATE and the cursor (R140). -/
theorem endDecode_eq (s : State) : endDecode s =
    { s with
      blk := { s.blk with
        state := .done, byteIndex := (codeRead s).blk.byteIndex, bitIndex := (codeRead s).blk.bitIndex }
      draws := (codeRead s).draws } := by
  simp only [endDecode]
  rw [codeRead_frame s]

/-- The cursor of a block that stands where the code read leaves it (R113, R136). -/
theorem cursor_of_codeRead {s : State} {b : Block} (hbyte : b.byteIndex = (codeRead s).blk.byteIndex)
    (hbit : b.bitIndex = (codeRead s).blk.bitIndex) (ha : s.blk.codeWidth.toNat ≤ avail s.blk) :
    cursor b = cursor s.blk + s.blk.codeWidth.toNat := by
  rw [← read_cursor ha, cursor, hbyte, hbit, cursor]

/-- The state once the code is read, `out` is emitted, p :: ps is registered and c is the previous code (R142, R144). -/
def emitAndRegister (out : List Index) (c : Code) (p : Index) (ps : List Index) (s : State) : State :=
  { emitAll out (codeRead s) with blk := setPrev c (register p ps (emitAll out (codeRead s)).blk) }

/-- NEXT_CODE has room for one more code (R161). -/
theorem nextCode_succ {n : BitVec 13} (h : n.toNat < 4096) : (n + 1).toNat = n.toNat + 1 := by
  simp only [BitVec.ofNat_eq_ofNat, BitVec.toNat_add, BitVec.toNat_ofNat]
  omega

/-- CODE_WIDTH after a registration, wherever it stood (R133). -/
theorem register_grownWidth (x : Index) (xs : List Index) {b : Block} (h : b.nextCode.toNat < 4096) :
    (register x xs b).codeWidth.toNat = grownWidth b.codeWidth.toNat b.nextCode.toNat := by
  unfold register grow grownWidth
  dsimp only
  rw [nextCode_succ h]
  split
  · next hw =>
    have hw12 : b.codeWidth.toNat < 12 := hw.2
    simp only [BitVec.ofNat_eq_ofNat, BitVec.toNat_add, BitVec.toNat_ofNat]
    omega
  · rfl

section
variable (out : List Index) (c : Code) (p : Index) (ps : List Index) (s : State)

theorem emitAndRegister_eq : emitAndRegister out c p ps s =
    { s with
      out := s.out ++ out
      blk := { s.blk with
        outCount := s.blk.outCount + BitVec.ofNat 64 out.length, prev := c, prevValid := true
        table := setEntry s.blk.table s.blk.nextCode.toNat (.seq p ps)
        nextCode := s.blk.nextCode + 1
        codeWidth := (emitAndRegister out c p ps s).blk.codeWidth
        byteIndex := (codeRead s).blk.byteIndex, bitIndex := (codeRead s).blk.bitIndex }
      draws := (codeRead s).draws } := by
  simp only [emitAndRegister, emitRead_fields, setPrev]
  rw [register_eq]

theorem entryAt_emitAndRegister (c' : Code) : entryAt (emitAndRegister out c p ps s).blk.table c' =
    if c'.toNat = s.blk.nextCode.toNat then .seq p ps else entryAt s.blk.table c' := by
  rw [emitAndRegister_eq]
  exact entryAt_setEntry _ _ _ c'

theorem emitAndRegister_nextCode (h : s.blk.nextCode.toNat < 4096) :
    (emitAndRegister out c p ps s).blk.nextCode.toNat = s.blk.nextCode.toNat + 1 := by
  rw [emitAndRegister_eq]
  exact nextCode_succ h

theorem emitAndRegister_codeWidth (h : s.blk.nextCode.toNat < 4096) :
    (emitAndRegister out c p ps s).blk.codeWidth.toNat = grownWidth s.blk.codeWidth.toNat s.blk.nextCode.toNat := by
  have hb := register_grownWidth p ps (b := (emitAll out (codeRead s)).blk) (by rw [emitRead_fields]; exact h)
  rw [emitRead_fields] at hb
  rw [emitAndRegister, emitRead_fields]
  exact hb

end

/-- What a present code with no previous code does where the sink accepts its sequence (R141). -/
theorem presentNoPrev_eq {s : State} {c : Code} {x : Index} {xs : List Index} (hs : s.sinkAccepts = true)
    (hc : entryAt s.blk.table c = .seq x xs) : presentNoPrev c s = .next
      { s with
        out := s.out ++ x :: xs
        blk := { s.blk with
          outCount := s.blk.outCount + BitVec.ofNat 64 (xs.length + 1), prev := c, prevValid := true
          byteIndex := (codeRead s).blk.byteIndex, bitIndex := (codeRead s).blk.bitIndex }
        draws := (codeRead s).draws } := by
  simp only [presentNoPrev, hc, hs, if_true, emitRead_fields, setPrev, List.length_cons]

/-- What a present code with a previous code does where the sink accepts its sequence (R142). -/
theorem presentRegister_eq {s : State} {c : Code} {x p : Index} {xs ps : List Index} (hs : s.sinkAccepts = true)
    (hc : entryAt s.blk.table c = .seq x xs) (hp : entryAt s.blk.table s.blk.prev = .seq p ps) :
    presentRegister c s = .next (emitAndRegister (x :: xs) c p (ps ++ [x]) s) := by
  simp only [presentRegister, hc, hp, hs, if_true, emitAndRegister]

/-- What a KwKwK code with a previous code does where the sink accepts its sequence (R144). -/
theorem execKwkwk_eq {s : State} {p : Index} {ps : List Index} (c : Code) (hs : s.sinkAccepts = true)
    (hp : entryAt s.blk.table s.blk.prev = .seq p ps) :
    execKwkwk c s = .next (emitAndRegister (p :: (ps ++ [p])) c p (ps ++ [p]) s) := by
  simp only [execKwkwk, hp, hs, if_true, emitAndRegister]

/-- The initial table, entry by entry (R35). -/
theorem entryAt_initTable_cases (root : Nat) (c : Code) : entryAt (initTable root) c =
    if c.toNat < root then .seq (c.setWidth 8) []
    else if c.toNat = root then .clear
    else if c.toNat = root + 1 then .endMark else .absent :=
  entryAt_initTable root c

/-! ## START (R130, R190) -/

/-- INIT's writes to the block for a MIN_CODE_SIZE that START accepts (R130). -/
theorem initBlock_of_legal {b : Block} (h2 : 2 ≤ minCodeSize b) (h8 : minCodeSize b ≤ 8) :
    initBlock b = { freshTable (clearResults b) with prevValid := false, phase := .first, state := .busy } :=
  if_neg (not_or.2 ⟨Nat.not_lt.2 h2, Nat.not_lt.2 h8⟩)

/-- INIT's writes to the block for any other MIN_CODE_SIZE (R217). -/
theorem initBlock_of_illegal {b : Block} (h : minCodeSize b < 2 ∨ 8 < minCodeSize b) :
    initBlock b = errorEntry .protocolError 3 0 (clearResults b) := if_pos h

/-- Settles O21: INIT writes every register it names, and TableInit NEXT_CODE, CODE_WIDTH and T. -/
theorem startBeginsADecode : Obligations.StartBeginsADecode := by
  intro s hi h2 h8
  obtain ⟨hnext, hwidth⟩ := freshTable_facts (b := clearResults s.blk) h2 h8
  refine ⟨init s, rfl, ?_⟩
  rw [init, initBlock_of_legal h2 h8]
  exact ⟨rfl, hnext, hwidth, entryAt_initTable_cases _⟩

/-- Settles O22: INIT's error exit records the error after the registers are cleared. -/
theorem startRejectsABadMinCodeSize : Obligations.StartRejectsABadMinCodeSize := by
  intro s hi h
  show Host.Outcome.next (init s) = _
  rw [init, initBlock_of_illegal h]
  rfl

/-! ## Code steps (R136 to R146) -/

/-- Settles O32: no bit remains exactly where the cursor stands at or past the end of IN. -/
theorem endOfDataRaises : Obligations.EndOfDataRaises := by
  intro s
  show execEod s = _
  unfold execEod
  simp only [avail, cursor, Nat.sub_eq_zero_iff_le]
  split
  · rfl
  · rfl

/-- Settles O33: an accepted first code writes PHASE and the cursor, a refused one ErrorEntry's fields. -/
theorem acceptedFirstCodeEntersLoop : Obligations.AcceptedFirstCodeEntersLoop := by
  refine ⟨fun s i h => ?_, fun s c => ⟨_, rfl, rfl⟩⟩
  rw [exec_of_firstAccepted s h, acceptFirst_eq]
  exact ⟨_, rfl, cursor_of_codeRead rfl rfl, rfl⟩

/-- Settles O34: CLEAR is TableInit without a previous code, after the code is read. -/
theorem clearResetsTheTable : Obligations.ClearResetsTheTable := by
  intro s i h h2 h8
  obtain ⟨hnext, hwidth⟩ := freshTable_facts h2 h8
  rw [exec_of_isClear s h, clearTable_eq]
  exact ⟨_, rfl, cursor_of_codeRead rfl rfl, rfl, hnext, hwidth, entryAt_initTable_cases _⟩

/-- Settles O35: END writes STATE and the cursor. -/
theorem endCompletesTheDecode : Obligations.EndCompletesTheDecode := by
  intro s i h
  rw [exec_of_isEnd s h, endDecode_eq]
  exact ⟨_, rfl, cursor_of_codeRead rfl rfl, rfl⟩

/-- Settles O36: the rows of R141 emit the code's sequence and make the code the previous one. -/
theorem presentCodeWithoutPreviousEmits : Obligations.PresentCodeWithoutPreviousEmits := by
  intro s i c x xs h hs hc
  rw [exec_of_noPrevCode s h, presentNoPrev_eq hs hc]
  exact ⟨_, rfl, cursor_of_codeRead rfl rfl, rfl⟩

/-- Settles O37: the rows of R142 emit the code's sequence and register the previous one's with its first index. -/
theorem presentCodeRegisters : Obligations.PresentCodeRegisters := by
  intro s i c x p xs ps h hs hn hc hp
  rw [exec_of_registerCode s h, presentRegister_eq hs hc hp]
  refine ⟨_, rfl, ?_, ?_, entryAt_emitAndRegister _ _ _ _ s, emitAndRegister_nextCode _ _ _ _ s hn,
    emitAndRegister_codeWidth _ _ _ _ s hn⟩
  · rw [emitAndRegister_eq]; exact cursor_of_codeRead rfl rfl
  · rw [emitAndRegister_eq]; rfl

/-- Settles O38: a KwKwK code emits and registers the previous sequence with its own first index. -/
theorem kwkwkEmitsAndRegisters : Obligations.KwkwkEmitsAndRegisters := by
  intro s c p ps hs hc hp
  have hn : s.blk.nextCode.toNat < 4096 := hc ▸ c.isLt
  refine ⟨_, execKwkwk_eq c hs hp, ?_, ?_, ?_, ?_, emitAndRegister_codeWidth _ _ _ _ s hn⟩
  · rw [emitAndRegister_eq]; exact cursor_of_codeRead rfl rfl
  · rw [emitAndRegister_eq]; simp
  · rw [hc]; exact entryAt_emitAndRegister _ _ _ _ s
  · rw [hc]; exact emitAndRegister_nextCode _ _ _ _ s hn

/-- Settles O39: each of these classes raises its error, which writes ErrorEntry's fields only. -/
theorem codeErrorsEnterError : Obligations.CodeErrorsEnterError := by
  refine ⟨fun s i k d c h => ⟨_, exec_of_codeError s h, rfl⟩, fun s i h => ?_⟩
  rw [exec_of_firstAccepted s h, acceptFirst_eq]
  exact ⟨_, rfl, rfl, rfl, cursor_of_codeRead rfl rfl⟩

/-! ## The code table, CODE_WIDTH and PREV of a running decode -/

/-- The part of `EngineOk` that speaks of the code registers and T: R160 to R163 and R141. -/
structure CodesOk (b : Block) : Prop where
  next : rootSizeOf b + 2 ≤ b.nextCode.toNat ∧ b.nextCode.toNat ≤ 4096
  width : b.codeWidth.toNat = min 12 (bitLen b.nextCode.toNat)
  table : TableOk (rootSizeOf b) b.nextCode.toNat b.table
  previous : b.prevValid = true → b.prev.toNat < b.nextCode.toNat ∧ ∃ x xs, entryAt b.table b.prev = .seq x xs
  noPrevious : b.prevValid = false → b.nextCode.toNat = rootSizeOf b + 2

theorem EngineOk.codes {s : State} (h : EngineOk s) : CodesOk s.blk :=
  ⟨h.next, h.width, h.table, h.previous, h.noPrevious⟩

/-- TableInit without a previous code leaves them in order (R130, R139). -/
theorem codesOk_freshTable {b : Block} (h2 : 2 ≤ minCodeSize b) (h8 : minCodeSize b ≤ 8) :
    CodesOk { freshTable b with prevValid := false } := by
  obtain ⟨hnext, hwidth⟩ := freshTable_facts h2 h8
  have hroot : rootSizeOf b ≤ 2 ^ 8 := Nat.pow_le_pow_right (by decide) h8
  constructor
  case next => exact ⟨hnext.ge, hnext.trans_le (by omega)⟩
  case width => exact hwidth.trans ((bitLen_fresh h2 h8).trans (congrArg (min 12 ∘ bitLen) hnext.symm))
  case table => exact tableOk_initTable _ hnext.le
  case previous => exact nofun
  case noPrevious => exact fun _ => hnext

/-- OUT gets the indices xs, root indices (R167) and no more than one step may emit (R164), and OUT_COUNT counts them. -/
structure Emits (s t : State) (xs : List Index) : Prop where
  out : t.out = s.out ++ xs
  count : t.blk.outCount = s.blk.outCount + BitVec.ofNat 64 xs.length
  length_le : xs.length ≤ 4095 - rootSizeOf s.blk
  roots : ∀ x ∈ xs, x.toNat < rootSizeOf s.blk

theorem emits_nil {s t : State} (hout : t.out = s.out) (hcount : t.blk.outCount = s.blk.outCount) : Emits s t [] :=
  ⟨by rw [hout, List.append_nil], by simp [hcount], Nat.zero_le _, nofun⟩

section
variable {s : State} (he : EngineOk s)
include he

/-- A registration, after which the code that became PREV is present, keeps them in order (R132, R133, R147). -/
theorem codesOk_emitAndRegister (out : List Index) (hn : s.blk.nextCode.toNat < 4096) {p y : Index} {ps : List Index}
    {q c : Code} (hq : q.toNat < s.blk.nextCode.toNat) (hqe : entryAt s.blk.table q = .seq p ps) (hy : y.toNat < rootSizeOf s.blk)
    (hc : c.toNat = s.blk.nextCode.toNat ∨
      c.toNat < s.blk.nextCode.toNat ∧ ∃ x xs, entryAt s.blk.table c = .seq x xs) :
    CodesOk (emitAndRegister out c p (ps ++ [y]) s).blk := by
  obtain ⟨hlo, -⟩ := he.next
  obtain ⟨hroot4, -⟩ := rootSize_bounds he
  have hroot : rootSizeOf (emitAndRegister out c p (ps ++ [y]) s).blk = rootSizeOf s.blk :=
    rootSizeOf_congr (by rw [emitAndRegister_eq])
  have hnext := emitAndRegister_nextCode out c p (ps ++ [y]) s hn
  constructor
  case next => rw [hroot, hnext]; omega
  case width =>
    rw [hnext, emitAndRegister_codeWidth out c p (ps ++ [y]) s hn]
    exact grow_width he.width (by omega)
  case table =>
    rw [hroot, hnext]
    exact tableOk_register he (by rw [emitRead_fields]) (by rw [emitRead_fields]) q hq hqe hy
  case previous =>
    intro _
    have hle : c.toNat ≤ s.blk.nextCode.toNat := hc.elim Eq.le fun h => h.1.le
    refine ⟨hnext ▸ Nat.lt_succ_of_le hle, ?_⟩
    show ∃ x xs, entryAt _ c = _
    rw [entryAt_emitAndRegister]
    obtain hc | ⟨hc, hce⟩ := hc
    · exact ⟨p, ps ++ [y], if_pos hc⟩
    · rwa [if_neg hc.ne]
  case noPrevious => exact nofun

/-- Every move of the engine keeps them in order. -/
theorem codeMove_codesOk {t : State} (h : CodeMove s t) : CodesOk t.blk := by
  have hcodes := he.codes
  obtain ⟨hlo, -⟩ := he.next
  cases h with
  | held => exact hcodes
  | eod | err => exact { hcodes with }
  | accept => rw [acceptFirst_blk]; exact { hcodes with }
  | clear => rw [clearTable_blk]; exact { codesOk_freshTable he.minCode.1 he.minCode.2 with }
  | done => rw [endDecode_eq]; exact { hcodes with }
  | noPrev c x xs _ _ hc hce =>
    rw [emitRead_fields]
    have hc' : c.toNat < s.blk.nextCode.toNat := by omega
    exact { hcodes with previous := fun _ => ⟨hc', x, xs, hce⟩, noPrevious := nofun }
  | reg c x xs p ps _ hv hn hc hce hpe =>
    have hc' : c.toNat < s.blk.nextCode.toNat := by omega
    obtain ⟨hx, -⟩ := sequence_length_le he hc' hce
    exact codesOk_emitAndRegister he _ hn (he.previous hv).1 hpe (hx x (by simp)) (.inr ⟨hc', x, xs, hce⟩)
  | kw c p ps _ hv hc hpe =>
    obtain ⟨hp, -⟩ := sequence_length_le he (he.previous hv).1 hpe
    exact codesOk_emitAndRegister he _ (hc ▸ c.isLt) (he.previous hv).1 hpe (hp p (by simp)) (.inl hc)

/-! ## What one move of the engine emits -/

/-- Every move emits nothing, the sequence of a present code, or PREV's and its first index (R141, R142, R144). -/
theorem codeMove_emits {t : State} (h : CodeMove s t) : ∃ xs, Emits s t xs := by
  obtain ⟨hlo, hhi⟩ := he.next
  have hroot := rootSize_bounds he
  cases h with
  | held | eod | err => exact ⟨[], emits_nil rfl rfl⟩
  | accept | clear | done => exact ⟨[], emits_nil (codeRead_out s) (codeRead_outCount s)⟩
  | noPrev c x xs _ _ hc hce =>
    obtain ⟨hx, hlen⟩ := sequence_length_le he (by omega) hce
    exact ⟨x :: xs, by simp [emitRead_fields], by simp only [emitRead_fields, setPrev], by rw [List.length_cons]; omega, hx⟩
  | reg c x xs p ps _ _ _ hc hce =>
    obtain ⟨hx, hlen⟩ := sequence_length_le he (by omega) hce
    exact ⟨x :: xs, by simp [emitRead_fields], by simp only [emitRead_fields, setPrev, register_outCount],
      by rw [List.length_cons]; omega, hx⟩
  | kw c p ps _ hv hc hpe =>
    obtain ⟨hprev, -⟩ := he.previous hv
    obtain ⟨hp, hlen⟩ := sequence_length_le he hprev hpe
    have hc12 := c.isLt
    refine ⟨p :: (ps ++ [p]), by simp [emitRead_fields], by simp only [emitRead_fields, setPrev, register_outCount], ?_, ?_⟩
    · simp only [List.length_cons, List.length_append, List.length_nil]
      omega
    · exact fun y hy => hp y (by simpa [or_comm, or_assoc] using hy)

/-- OUT after a move stays within 4091 indices for every 3 bits up to the end of the move's code (R165, R166). -/
theorem codeMove_emitted {t : State} (h : CodeMove s t) :
    3 * t.out.length ≤ 4091 * (cursor s.blk + s.blk.codeWidth.toNat) := by
  obtain ⟨xs, hout, -, hlen, -⟩ := codeMove_emits he h
  have hroot := rootSize_bounds he
  have hw := codeWidth_bounds he
  have hem := he.emitted
  rw [hout, List.length_append]
  omega

/-- OUT_COUNT does not wrap over a move (R166). -/
theorem codeMove_counted {t : State} (h : CodeMove s t) (hc : s.blk.outCount.toNat = s.out.length) :
    t.blk.outCount.toNat = t.out.length := by
  obtain ⟨xs, hout, hcount, -, -⟩ := codeMove_emits he h
  have hem := codeMove_emitted he h
  have hw := codeWidth_bounds he
  have hpos := cursor_lt s.blk
  rw [hcount, BitVec.toNat_add, BitVec.toNat_ofNat, hc]
  rw [hout, List.length_append] at hem ⊢
  omega

end

/-- A move of the engine that stays in BUSY is one the sink holds, or it has read its code and PHASE is LOOP (R135). -/
theorem codeMove_of_busy {s t : State} (h : CodeMove s t) (hb : t.blk.state = .busy) :
    (s.sinkAccepts = false ∧ t = s) ∨
    (t.blk.phase = .loop ∧ t.blk.byteIndex = (codeRead s).blk.byteIndex ∧ t.blk.bitIndex = (codeRead s).blk.bitIndex) := by
  cases h with
  | held hs => exact .inl ⟨hs, rfl⟩
  | eod | err | done => cases hb
  | accept => exact .inr ⟨rfl, rfl, rfl⟩
  | clear hp => exact .inr ⟨(codeRead_phase s).trans hp, rfl, rfl⟩
  | noPrev c x xs hp => exact .inr (by simp [emitRead_fields, setPrev, hp])
  | reg c x xs p ps hp => exact .inr (by simp [emitRead_fields, setPrev, hp])
  | kw c p ps hp => exact .inr (by simp [emitRead_fields, setPrev, hp])

/-- A decode that goes on stays in order: its code had all its bits, and the move read it or was held. -/
theorem codeMove_engineOk {s t : State} (he : EngineOk s) (ha : s.blk.codeWidth.toNat ≤ avail s.blk) (h : CodeMove s t)
    (hb : t.blk.state = .busy) : EngineOk t := by
  obtain ⟨-, rfl⟩ | ⟨hphase, hbyte, hbit⟩ := codeMove_of_busy h hb
  · exact he
  obtain ⟨hconfig, hlen⟩ := codeMove_configuration h
  have hcodes := codeMove_codesOk he h
  have hcur := cursor_of_codeRead hbyte hbit ha
  obtain ⟨hw, -⟩ := codeWidth_bounds he
  constructor
  case minCode => rw [minCodeSize_congr hconfig]; exact he.minCode
  case next => exact hcodes.next
  case width => exact hcodes.width
  case position => rw [hcur, hlen]; exact cursor_le ha (by omega)
  case table => exact hcodes.table
  case previous => exact hcodes.previous
  case noPrevious => exact hcodes.noPrevious
  case atFirst => exact fun hf => nomatch hf.symm.trans hphase
  case emitted => rw [hcur]; exact codeMove_emitted he h
  case indices =>
    obtain ⟨xs, hout, -, -, hxs⟩ := codeMove_emits he h
    rw [hout, rootSizeOf_congr hconfig]
    exact fun x hx => (List.mem_append.1 hx).elim (he.indices x) (hxs x)

/-- STATUS and ERR_CODE after a move of the engine (R140, R211, R213): an error of R211 is recorded, or none is. -/
theorem codeMove_status {s t : State} (hb : s.blk.state = .busy) (h : CodeMove s t) :
    (t.blk.state = .error ∧ errorPair t.blk.errKind t.blk.errDetail = true) ∨
    ((t.blk.state = .busy ∨ t.blk.state = .done) ∧ t.blk.errKind = s.blk.errKind ∧
      t.blk.errDetail = s.blk.errDetail ∧ t.blk.errCode = s.blk.errCode) := by
  cases h with
  | held => exact .inr ⟨.inl hb, rfl, rfl, rfl⟩
  | eod d hd => exact .inl ⟨rfl, by obtain rfl | rfl := hd <;> rfl⟩
  | err k d c hk => exact .inl ⟨rfl, hk⟩
  | accept => rw [acceptFirst_blk]; exact .inr ⟨.inl hb, rfl, rfl, rfl⟩
  | clear => rw [clearTable_blk]; exact .inr ⟨.inl hb, rfl, rfl, rfl⟩
  | done => rw [endDecode_eq]; exact .inr ⟨.inr rfl, rfl, rfl, rfl⟩
  | noPrev c x xs => exact .inr (by simp [emitRead_fields, setPrev, hb])
  | reg c x xs p ps => exact .inr (by simp [emitRead_fields, setPrev, hb])
  | kw c p ps => exact .inr (by simp [emitRead_fields, setPrev, hb])

theorem codeMove_blockOk {s t : State} (hb : s.blk.state = .busy) (he : EngineOk s) (hblk : BlockOk s) (h : CodeMove s t) :
    BlockOk t := by
  obtain ⟨hconfig, -⟩ := codeMove_configuration h
  have hcounted := codeMove_counted he h (hblk.counted (by simp [hb]))
  obtain ⟨hkind, hdetail, hcode⟩ := hblk.noError (by simp [hb])
  have hres : t.blk.config &&& configMask = t.blk.config := by rw [hconfig]; exact hblk.reserved
  obtain ⟨hst, hpair⟩ | ⟨hst, hk, hd, hc⟩ := codeMove_status hb h
  · exact ⟨hres, fun _ => hpair, fun hne => absurd hst hne, fun _ => hcounted, fun hi => nomatch hst.symm.trans hi⟩
  · have hnone := And.intro (hk.trans hkind) (And.intro (hd.trans hdetail) (hc.trans hcode))
    refine ⟨hres, fun h => ?_, fun _ => hnone, fun _ => hcounted, fun h => ?_⟩
    · simp [h] at hst
    · simp [h] at hst

/-! ## The invariant over one step -/

/-- The engine's turn keeps the invariant. -/
theorem engineTurn_inv {s t : State} (hi : s.Inv) (h : engineTurn s = .next t) : t.Inv := by
  by_cases hb : s.blk.state = .busy
  case neg =>
    rw [engineTurn_of_not_busy hb] at h
    cases h
    exact hi
  obtain ⟨hin, hch, hmark, -⟩ := codeMove_frame (engineTurn_codeMove hb h)
  constructor
  case memory => rw [hin]; exact hi.memory
  case rising => rw [hch]; exact hi.rising
  case block =>
    intro hm
    rw [hmark] at hm
    exact codeMove_blockOk hb (hi.engine hm hb) (hi.block hm) (engineTurn_codeMove hb h)
  case engine =>
    intro hm hbt
    rw [hmark] at hm
    obtain ⟨-, d, -, rfl⟩ | ⟨ha, hmove⟩ := engineTurn_moves hb h
    · cases hbt
    · exact codeMove_engineOk (hi.engine hm hb) ha hmove hbt

/-- The invariant does not speak of RDATA, the sink, the coming events or the draws. -/
theorem inv_of_same {s t : State} (hi : s.Inv) (hm : Memory.wf t.input) (hc : t.changed.Pairwise (· < ·))
    (hblk : t.blk = s.blk) (hout : t.out = s.out) (hmark : t.refusalMark = s.refusalMark) : t.Inv := by
  constructor
  case memory => exact hm
  case rising => exact hc
  case block =>
    intro h
    have hb := hi.block (hmark ▸ h)
    exact ⟨hblk ▸ hb.reserved, hblk ▸ hb.inError, hblk ▸ hb.noError, hblk ▸ hout ▸ hb.counted, hblk ▸ hb.inIdle⟩
  case engine =>
    intro h hbusy
    have he := hi.engine (hmark ▸ h) (hblk ▸ hbusy)
    exact ⟨hblk ▸ he.minCode, hblk ▸ he.next, hblk ▸ he.width, hblk ▸ he.position, hblk ▸ he.table,
      hblk ▸ he.previous, hblk ▸ he.noPrevious, hblk ▸ hout ▸ he.atFirst, hblk ▸ hout ▸ he.emitted,
      hblk ▸ hout ▸ he.indices⟩

theorem withPending_inv {s : State} (hi : s.Inv) (es : List Event) : (withPending es s).Inv :=
  inv_of_same hi hi.memory hi.rising rfl rfl rfl

/-- INIT with a MIN_CODE_SIZE outside 2 to 8 leaves the block in ERROR with R217's pair. -/
theorem init_inv_of_illegal {s : State} (hi : s.Inv) (hm : minCodeSize s.blk < 2 ∨ 8 < minCodeSize s.blk) : (init s).Inv := by
  have hblk : (init s).blk = errorEntry .protocolError 3 0 (clearResults s.blk) := initBlock_of_illegal hm
  exact
    { memory := hi.memory
      rising := List.Pairwise.nil
      block := fun h =>
        { reserved := by rw [hblk]; exact (hi.block h).reserved
          inError := fun _ => by rw [hblk]; rfl
          noError := fun hne => absurd (by rw [hblk]; rfl) hne
          counted := fun _ => by rw [hblk]; rfl
          inIdle := fun hidle => by rw [hblk] at hidle; cases hidle }
      engine := fun _ hb => by rw [hblk] at hb; cases hb }

/-- INIT with another MIN_CODE_SIZE leaves a running decode that has read and emitted nothing (R130). -/
theorem init_inv_of_legal {s : State} (hi : s.Inv) (h2 : 2 ≤ minCodeSize s.blk) (h8 : minCodeSize s.blk ≤ 8) :
    (init s).Inv := by
  have hblk : (init s).blk = _ := initBlock_of_legal h2 h8
  have hcodes : CodesOk (init s).blk := by
    rw [hblk]
    exact { codesOk_freshTable (b := clearResults s.blk) h2 h8 with }
  have hcur : cursor (init s).blk = 0 := by rw [hblk]; rfl
  exact
    { memory := hi.memory
      rising := List.Pairwise.nil
      block := fun h =>
        { reserved := by rw [hblk]; exact (hi.block h).reserved
          inError := fun hb => by rw [hblk] at hb; cases hb
          noError := fun _ => by rw [hblk]; exact ⟨rfl, rfl, rfl⟩
          counted := fun _ => by rw [hblk]; rfl
          inIdle := fun hidle => by rw [hblk] at hidle; cases hidle }
      engine := fun _ _ =>
        { hcodes with
          minCode := by rw [hblk]; exact ⟨h2, h8⟩
          position := hcur.trans_le (Nat.zero_le _)
          atFirst := fun _ => ⟨by rw [hblk], hcur, rfl⟩
          emitted := Nat.zero_le _
          indices := nofun } }

theorem init_inv {s : State} (hi : s.Inv) : (init s).Inv := by
  by_cases hm : minCodeSize s.blk < 2 ∨ 8 < minCodeSize s.blk
  · exact init_inv_of_illegal hi hm
  · obtain ⟨h2, h8⟩ := not_or.1 hm
    exact init_inv_of_legal hi (Nat.not_lt.1 h2) (Nat.not_lt.1 h8)

/-- In IDLE the invariant asks only that the engine and result registers are 0 (R38, R192). -/
theorem inv_of_idle {t : State} (hm : Memory.wf t.input) (hc : t.changed.Pairwise (· < ·))
    (hres : t.refusalMark = false → t.blk.config &&& configMask = t.blk.config) (hidle : t.blk.state = .idle)
    (hclear : clearResults t.blk = t.blk) (hphase : t.blk.phase = .first) : t.Inv where
  memory := hm
  rising := hc
  block h :=
    { reserved := hres h
      inError := fun he => nomatch hidle.symm.trans he
      noError := fun _ => by rw [← hclear]; exact ⟨rfl, rfl, rfl⟩
      counted := fun hne => absurd hidle hne
      inIdle := fun _ => ⟨hclear, hphase⟩ }
  engine _ hb := nomatch hidle.symm.trans hb

theorem abortBlock_inv {s : State} (hi : s.Inv) : (abortBlock s).Inv :=
  inv_of_idle hi.memory hi.rising (fun h => (hi.block h).reserved) rfl rfl rfl

theorem resetBlock_inv {s : State} (hi : s.Inv) : (resetBlock s).Inv :=
  inv_of_idle hi.memory hi.rising (fun _ => BitVec.zero_and) rfl rfl rfl

/-- Another CONFIG without reserved bits, or another IN_LEN, outside BUSY. -/
theorem configured_inv {s : State} {k l : Word} (hi : s.Inv) (hb : s.blk.state ≠ .busy)
    (hk : s.refusalMark = false → k &&& configMask = k) :
    State.Inv { s with blk := { s.blk with config := k, inLen := l } } where
  memory := hi.memory
  rising := hi.rising
  block h :=
    { hi.block h with
      reserved := hk h
      inIdle := fun hidle => by
        obtain ⟨hclear, hphase⟩ := (hi.block h).inIdle hidle
        exact ⟨congrArg (fun b : Block => { b with config := k, inLen := l }) hclear, hphase⟩ }
  engine _ h := absurd h hb

/-- Every host transaction keeps the invariant. -/
theorem hostMove_inv {s t : State} {bits : Nat} {w : HbusWord} (hi : s.Inv) (h : HostMove s bits w t) : t.Inv := by
  cases h with
  | ignored => exact hi
  | start => exact init_inv hi
  | abort => exact abortBlock_inv hi
  | writeConfig =>
    unfold writeConfig
    split
    · exact hi
    · next hb => exact configured_inv hi (by simpa [isBusy] using hb) fun _ => by rw [BitVec.and_assoc, BitVec.and_self]
  | writeInLen =>
    unfold writeInLen
    split
    · exact hi
    · next hb => exact configured_inv hi (by simpa [isBusy] using hb) fun h => (hi.block h).reserved
  | readExact v => exact inv_of_same hi hi.memory hi.rising rfl rfl rfl
  | readResult v =>
    obtain h | ⟨-, h⟩ := readResult_eq s v
    · rw [h]; exact inv_of_same hi hi.memory hi.rising rfl rfl rfl
    · rw [h]; exact inv_of_same hi hi.memory hi.rising rfl rfl rfl
  | refuse => exact ⟨hi.memory, hi.rising, nofun, nofun⟩

/-- Settles O4: each agent's move keeps the invariant, the engine's by what its code step reads, emits and registers. -/
theorem stepKeepsInvariant : Obligations.StepKeepsInvariant := by
  intro s t hi hstep
  cases hp : s.pending with
  | nil => exact engineTurn_inv hi (step_nil hp ▸ hstep)
  | cons e es =>
    cases e with
    | engine => exact engineTurn_inv (withPending_inv hi es) (step_engine hp ▸ hstep)
    | host bits w =>
      obtain ⟨u, hu, hmove⟩ := decodeHbus_moves (withPending es s) bits w
      obtain rfl : u = t := by simpa using hu.symm.trans ((step_host hp).symm.trans hstep)
      exact hostMove_inv (withPending_inv hi es) hmove
    | sink a => rw [step_sink hp] at hstep; cases hstep; exact inv_of_same hi hi.memory hi.rising rfl rfl rfl
    | place a v =>
      rw [step_place hp] at hstep
      cases hstep
      obtain ⟨hm, hc⟩ := placeByte_canonical (s := withPending es s) hi.memory hi.rising a v
      exact inv_of_same hi hm hc rfl rfl rfl
    | rst => rw [step_rst hp] at hstep; cases hstep; exact resetBlock_inv (withPending_inv hi es)

/-! ## No step stops (R33, R162) -/

theorem presentNoPrev_runs {s : State} {c : Code} (hc : ∃ x xs, entryAt s.blk.table c = .seq x xs) :
    Runs (presentNoPrev c s) := by
  obtain ⟨x, xs, hc⟩ := hc
  rw [presentNoPrev, hc]
  dsimp only
  split
  · exact ⟨_, rfl⟩
  · exact ⟨_, rfl⟩

theorem presentRegister_runs {s : State} {c : Code} (hc : ∃ x xs, entryAt s.blk.table c = .seq x xs)
    (hp : ∃ p ps, entryAt s.blk.table s.blk.prev = .seq p ps) : Runs (presentRegister c s) := by
  obtain ⟨x, xs, hc⟩ := hc
  obtain ⟨p, ps, hp⟩ := hp
  rw [presentRegister, hc, hp]
  dsimp only
  split
  · exact ⟨_, rfl⟩
  · exact ⟨_, rfl⟩

theorem execKwkwk_runs {s : State} (c : Code) (hp : ∃ p ps, entryAt s.blk.table s.blk.prev = .seq p ps) :
    Runs (execKwkwk c s) := by
  obtain ⟨p, ps, hp⟩ := hp
  rw [execKwkwk, hp]
  dsimp only
  split
  · exact ⟨_, rfl⟩
  · exact ⟨_, rfl⟩

/-- In a running decode every code's class goes on: a present code has a sequence, and so has a valid PREV (R162). -/
theorem classStep_runs {s : State} {x : CodeCtx} (he : EngineOk s) (hx : codeCtx s.blk = some x) (c : Code) :
    Runs (classStep x c s) := by
  obtain ⟨-, -, hv, hn, hroot⟩ := codeCtx_some hx
  unfold classStep
  cases x.phase with
  | first => dsimp only; split_ifs <;> exact ⟨_, rfl⟩
  | loop =>
    dsimp only
    rw [hv, hn, hroot]
    split_ifs with hclear hend hpresent hnoprev hroom hkw hprev
    · exact ⟨_, rfl⟩
    · exact ⟨_, rfl⟩
    · exact presentNoPrev_runs (tableOk_present he.table hclear hend hpresent)
    · exact presentRegister_runs (tableOk_present he.table hclear hend hpresent) (he.previous (by simpa using hnoprev)).2
    · exact ⟨_, rfl⟩
    · exact execKwkwk_runs c (he.previous hprev).2
    · exact ⟨_, rfl⟩
    · exact ⟨_, rfl⟩

theorem execEod_runs (s : State) : Runs (execEod s) := by
  unfold execEod
  split
  · exact ⟨_, rfl⟩
  · exact ⟨_, rfl⟩

theorem engineTurn_runs {s : State} (hi : s.Inv) (hm : s.refusalMark = false) : Runs (engineTurn s) := by
  by_cases hb : s.blk.state = .busy
  · have he := hi.engine hm hb
    obtain ⟨m, -, hx⟩ := codeCtx_of_legal he.minCode.1 he.minCode.2
    rw [engineTurn_eq hb hx]
    split
    · exact execEod_runs s
    · exact classStep_runs he hx _
  · exact ⟨s, engineTurn_of_not_busy hb⟩

/-- Settles O5: only the engine could stop; a running decode has a legal MIN_CODE_SIZE and a sequence in every entry a step needs. -/
theorem stepNeverStops : Obligations.StepNeverStops := by
  intro s hi hm
  cases hp : s.pending with
  | nil => rw [step_nil hp]; exact engineTurn_runs hi hm
  | cons e es =>
    cases e with
    | engine => rw [step_engine hp]; exact engineTurn_runs (withPending_inv hi es) hm
    | host bits w =>
      obtain ⟨t, ht, -⟩ := decodeHbus_moves (withPending es s) bits w
      exact ⟨t, (step_host hp).trans ht⟩
    | sink a => exact ⟨_, step_sink hp⟩
    | place a v => exact ⟨_, step_place hp⟩
    | rst => exact ⟨_, step_rst hp⟩

/-! ## What holds of a running decode -/

/-- Settles O45: a dynamic entry is an earlier one with one more index, and a move emits one entry's sequence, or PREV's and one more. -/
theorem emissionIsBounded : Obligations.EmissionIsBounded := by
  intro s hi hm hb
  have he := hi.engine hm hb
  refine ⟨fun c x xs hlo hlt hc => ?_, fun t ht => ?_⟩
  · obtain ⟨-, -, hlen⟩ := tableOk_sequence he.table (rootSize_bounds he).2 c hlt hc
    exact (hlen (by omega)).2
  · obtain ⟨xs, hout, -, hlen, hxs⟩ := codeMove_emits he (engineTurn_codeMove hb ht)
    exact ⟨xs, hout, hlen, hxs⟩

/-- Settles O46: a turn that ends in BUSY is neither EOD nor held, so it has read a code of CODE_WIDTH bits. -/
theorem everyCodeStepAdvances : Obligations.EveryCodeStepAdvances := by
  intro s t hi hm hb hs ht hbt
  obtain ⟨-, d, -, rfl⟩ | ⟨ha, hmove⟩ := engineTurn_moves hb ht
  · cases hbt
  obtain ⟨hheld, -⟩ | ⟨-, hbyte, hbit⟩ := codeMove_of_busy hmove hbt
  · exact absurd hs (by simp [hheld])
  · exact ⟨cursor_of_codeRead hbyte hbit ha, (codeWidth_bounds (hi.engine hm hb)).1⟩

/-- Settles O48: OUT is within 4091 indices for every 3 bits up to IN_LEN, and OUT_COUNT counts it. -/
theorem outCountNeverWraps : Obligations.OutCountNeverWraps := by
  intro s t hi hm hb ht
  have he := hi.engine hm hb
  have hcounted := codeMove_counted he (engineTurn_codeMove hb ht) ((hi.block hm).counted (by simp [hb]))
  have hlen := s.blk.inLen.isLt
  have hbound : 3 * t.out.length ≤ 4091 * (8 * s.blk.inLen.toNat) := by
    obtain ⟨-, d, -, rfl⟩ | ⟨ha, hmove⟩ := engineTurn_moves hb ht
    · exact he.emitted.trans (Nat.mul_le_mul_left _ he.position)
    · have hw := (codeWidth_bounds he).1
      exact (codeMove_emitted he hmove).trans (Nat.mul_le_mul_left _ (cursor_le ha (by omega)))
  exact ⟨hcounted, by omega, by omega⟩

/-! ## Which classes occur (R141, R145, R168) -/

theorem isClear_clearRow (m : MinCode) : isClear (clearRow m) = true := by cases m <;> rfl
theorem isEnd_endRow (m : MinCode) : isEnd (endRow m) = true := by cases m <;> rfl

theorem fullCode_litFullRow {m : MinCode} {c : Code} (h : c.toNat < rootSize m) : fullCode (litFullRow c m) = some c := by
  cases m <;> exact congrArg some (setWidth_setWidth_of_lt h)

theorem noPrevCode_litNoprevRow {m : MinCode} {c : Code} (h : c.toNat < rootSize m) :
    noPrevCode (litNoprevRow c m) = some c := by
  cases m <;> exact congrArg some (setWidth_setWidth_of_lt h)

/-- The rows of R141 are LIT and DICT rows. -/
theorem classOf_of_noPrevCode {i : Instr} {c : Code} (h : noPrevCode i = some c) :
    classOf i = some .lit ∨ classOf i = some .dict := by
  cases i <;> cases h <;> first | exact .inl rfl | exact .inr rfl

/-- Settles O50: a full table has registered codes, so there is a previous one, and no code is at or above NEXT_CODE. -/
theorem fullTableClasses : Obligations.FullTableClasses := by
  intro s x c hi hm hb hph hfull hx
  have he := hi.engine hm hb
  obtain ⟨hxph, -, hxv, hxn, hroot⟩ := codeCtx_some hx
  have hr := rootSize_bounds he
  have hv : s.blk.prevValid = true := by
    by_contra hv
    have := he.noPrevious (by simpa using hv)
    omega
  have hw : s.blk.codeWidth = 12 := BitVec.eq_of_toNat_eq (by rw [he.width, hfull]; decide)
  have hloop : x.phase = .loop := hxph.trans hph
  have hpresent {i : Instr} (h : fullCode i = some c) :
      fullCode i = some c ∧ exec i s = .next (raise .protocolError 2 c s) := ⟨h, exec_of_fullCode s h⟩
  have hc12 := c.isLt
  refine ⟨hv, hw, ?_⟩
  obtain hc | hc | hc | ⟨hc, hlt⟩ | hc | hc :=
    code_cases (root := rootSize x.minCode) (next := x.nextCode) c.toNat (by omega)
  · rw [decodeCode_clear hloop hc]; exact .inl (isClear_clearRow _)
  · rw [decodeCode_end hloop hc]; exact .inr (.inl (isEnd_endRow _))
  · rw [decodeCode_lit hloop hc, if_neg (by simp [hxv, hv]), if_neg (by omega)]
    exact .inr (.inr (hpresent (fullCode_litFullRow hc)))
  · rw [decodeCode_dict hloop hc hlt, if_neg (by simp [hxv, hv]), if_neg (by omega)]
    exact .inr (.inr (hpresent rfl))
  · omega
  · omega

/-- Settles O51: with no previous code NEXT_CODE is ROOT_SIZE + 2, so no code lies among the dynamic ones. -/
theorem onlyRootsWithoutPrevious : Obligations.OnlyRootsWithoutPrevious := by
  intro s x c hi hm hb hph hv hx
  have he := hi.engine hm hb
  obtain ⟨hxph, -, hxv, hxn, hroot⟩ := codeCtx_some hx
  have hnext : x.nextCode = rootSizeOf s.blk + 2 := hxn.trans (he.noPrevious hv)
  have hloop : x.phase = .loop := hxph.trans hph
  obtain ⟨-, -, hlit, hdict, hkwkwk, -, -⟩ := loopClassesPartitionTheCodes x c hloop (by omega)
  have hnodict : classOf (decodeCode x c) ≠ some .dict := fun h => by have := hdict.1 h; omega
  refine ⟨hnodict, fun c' h => ?_, fun h => (hkwkwk.1 h).trans hnext⟩
  have hc : c.toNat < rootSize x.minCode := hlit.1 ((classOf_of_noPrevCode h).resolve_right hnodict)
  rw [decodeCode_lit hloop hc, if_pos (hxv.trans hv), noPrevCode_litNoprevRow hc] at h
  exact ⟨(Option.some.inj h).symm, he.table.roots c (hroot ▸ hc)⟩

/-- Settles O52: CLEAR and INIT both write TableInit and no previous code, and with no error recorded nothing else differs. -/
theorem clearEqualsAFreshDecode : Obligations.ClearEqualsAFreshDecode := by
  intro s a u b c hi i j hinv hm hb hph hclear ha hu hconfig hlen hstart hj hc
  obtain ⟨h2, h8⟩ := (hinv.engine hm hb).minCode
  obtain ⟨hkind, hdetail, hcode⟩ := (hinv.block hm).noError (by simp [hb])
  have hmin : minCodeSize u.blk = minCodeSize s.blk := minCodeSize_congr hconfig
  obtain rfl : clearTable s = a := by simpa [exec_of_isClear s hclear] using ha
  obtain rfl : init u = b := by simpa [exec, execStart] using hstart
  obtain rfl : acceptFirst (init u) = c := by simpa [exec_of_firstAccepted _ hj] using hc
  rw [clearTable_blk, acceptFirst_blk, init_blk, initBlock_of_legal (hmin ▸ h2) (hmin ▸ h8)]
  simp only [freshTable, clearResults, rootSizeOf, minCodeSize, hconfig, hlen, hkind, hdetail, hcode, hb, hph]

end Sys2Proof.Machine
end

section
/-! PROOFS. The host interface of 42_host_interface.md: which instruction a transaction runs, what each command, write and read does, the
refusal mark, and the sink's answer. -/

namespace Sys2Proof.Machine

open Sys2Proof

/-! ## A transaction runs the instruction it encodes (R88, R180) -/

/-- The condition of a host transaction's row asks nothing of the code classes. -/
theorem admits_of_encode_hbus {i : Instr} {bits : Nat} {w : HbusWord} (h : encode i = .hbus bits w) (busy : Bool) (x y : CodeCtx) :
    (Ctx.mk busy x).admits i = (Ctx.mk busy y).admits i := by
  cases i <;> cases h <;> rfl

/-- A transaction decodes to the instruction it encodes, whatever the engine's state is. -/
theorem decodeHbus_of_encode {i : Instr} {bits : Nat} {w : HbusWord} {busy : Bool} {x : CodeCtx} (h : encode i = .hbus bits w)
    (hwf : WellFormed i) (hadm : (Ctx.mk busy x).admits i = true) : decodeHbus busy bits w = i := by
  have hdec := decodeOfEncode ⟨busy, ⟨.first, false, .m2, false, 6⟩⟩ i (by decide : rootSize .m2 + 2 ≤ 6)
    (by decide : 6 ≤ 4096) hwf (admits_of_encode_hbus h busy x _ ▸ hadm)
  rwa [h] at hdec

/-- Settles O10: the step decodes the transaction, and decoding undoes the encoding. -/
theorem stepRunsTheHostTransaction : Obligations.StepRunsTheHostTransaction := by
  intro s es bits w x i hp henc hwf hadm
  rw [step_host hp, decodeHbus_of_encode henc hwf hadm]

/-! ## The refusal mark (R181) -/

/-- Of the host's transactions only a refused one writes the refusal mark, and it sets it. -/
theorem hostMove_refusalMark {s t : State} {bits : Nat} {w : HbusWord} (h : HostMove s bits w t) :
    t.refusalMark = s.refusalMark ∨ t.refusalMark = true ∧ (bits ≠ 32 ∨ (hbusOff w).extractLsb' 0 2 ≠ 0) := by
  cases h with
  | refuse hrefused => exact .inr ⟨rfl, hrefused⟩
  | readResult v => obtain h | ⟨-, h⟩ := readResult_eq s v <;> exact .inl (by rw [h])
  | ignored | start | abort | writeConfig | writeInLen | readExact => exact .inl rfl

/-- A step leaves the refusal mark, unless its event is a refused transaction, which sets it. -/
theorem step_refusalMark {s t : State} (h : step s = .next t) : t.refusalMark = s.refusalMark ∨
    t.refusalMark = true ∧ ∃ bits w es, s.pending = .host bits w :: es ∧ (bits ≠ 32 ∨ (hbusOff w).extractLsb' 0 2 ≠ 0) := by
  cases step_moves h with
  | code _ _ hmove =>
    obtain ⟨-, -, hmark, -⟩ := codeMove_frame hmove
    exact .inl hmark
  | host bits w es hp hmove => exact (hostMove_refusalMark hmove).imp_right fun ⟨hset, href⟩ => ⟨hset, bits, w, es, hp, href⟩
  | still | sink | place | rst => exact .inl rfl

/-- Settles O31: a step that changes the mark sets it, and its event is a refused transaction. -/
theorem refusalMarkPersists : Obligations.RefusalMarkPersists := by
  intro s t hstep
  obtain hkept | ⟨hset, hrefused⟩ := step_refusalMark hstep
  · exact ⟨hkept.trans, fun hs ht => by simp [hkept, hs] at ht⟩
  · exact ⟨fun _ => hset, fun _ _ => hrefused⟩

/-- Either row of a refused transaction has the meaning `refuse` (R181). -/
theorem exec_of_isRefused {i : Instr} (s : State) (h : isRefused i = true) : exec i s = .next (refuse s) := by
  cases i <;> cases h <;> rfl

/-- Settles O30: `refuse` writes the block, RDATA, the count of draws and the mark. -/
theorem refusedTransactionSetsTheMark : Obligations.RefusedTransactionSetsTheMark :=
  fun s _ h => ⟨refuse s, exec_of_isRefused s h, rfl, rfl⟩

/-! ## Commands and writes (R185 to R193) -/

/-- irq is low in IDLE (R219). -/
theorem irq_of_idle {b : Block} (h : b.state = .idle) : irq b = false := by
  have hended : ended b = false := by rw [ended, h]; rfl
  rw [irq, hended, Bool.and_false]

/-- Settles O23: ABORT is `abortBlock`, which writes these registers and enters IDLE. -/
theorem abortReturnsToIdle : Obligations.AbortReturnsToIdle :=
  fun s _ _ => ⟨abortBlock s, rfl, irq_of_idle rfl, rfl⟩

/-- Settles O24: each of these rows has the meaning that changes nothing, and any other row contradicts the hypothesis. -/
theorem ignoredWritesChangeNothing : Obligations.IgnoredWritesChangeNothing := by
  intro s i h
  cases i with
  | startBusy | ctrlNop | wrStatus | wrCodeWidth | wrNextCode | wrPrevCode | wrByteIndex | wrBitIndex | wrOutCountLo
  | wrOutCountHi | wrErrCode | wrUnmapped30 | wrUnmapped40 | wrUnmapped80 => rfl
  | _ => cases h

theorem isBusy_iff {b : Block} : isBusy b = true ↔ b.state = .busy := by simp [isBusy]

theorem writeConfig_eq (d : Word) (b : Block) :
    writeConfig d b = { b with config := if b.state = .busy then b.config else d &&& configMask } := by
  simp only [writeConfig, isBusy_iff]
  split <;> rfl

theorem writeInLen_eq (d : Word) (b : Block) : writeInLen d b = { b with inLen := if b.state = .busy then b.inLen else d } := by
  simp only [writeInLen, isBusy_iff]
  split <;> rfl

/-- A field of CONFIG all of whose bits exist is stored as written (R22). -/
theorem extractLsb'_and_configMask {d : Word} {i n : Nat} (h : configMask.extractLsb' i n = BitVec.allOnes n) :
    (d &&& configMask).extractLsb' i n = d.extractLsb' i n := by
  rw [BitVec.extractLsb'_and, h, BitVec.and_allOnes]

theorem getLsbD_and_configMask {d : Word} {i : Nat} (h : configMask.getLsbD i = true) :
    (d &&& configMask).getLsbD i = d.getLsbD i := by
  rw [BitVec.getLsbD_and, h, Bool.and_true]

/-- Settles O25: every field the statement names lies in the bits of CONFIG that exist. -/
theorem writeConfigStoresOutsideBusy : Obligations.WriteConfigStoresOutsideBusy := by
  intro s d
  refine ⟨_, rfl, by rw [writeConfig_eq]; rfl, fun hb => ?_⟩
  simp only [writeConfig_eq, if_neg hb, minCodeSize, firstCheck, ctSize, irq, irqEn, ended]
  exact ⟨congrArg BitVec.toNat (extractLsb'_and_configMask (by decide)), getLsbD_and_configMask (by decide),
    extractLsb'_and_configMask (by decide), congrArg (· && _) (getLsbD_and_configMask (by decide))⟩

/-- Settles O26: the write of IN_LEN, in BUSY and outside it. -/
theorem writeInLenStoresOutsideBusy : Obligations.WriteInLenStoresOutsideBusy := by
  intro s d
  rw [← writeInLen_eq]
  rfl

/-! ## Reads (R182 to R184, R39) -/

section
variable {i : Instr} {v : Word} (s : State)

/-! One case per constructor: a read of the group has the group's meaning, and any other row contradicts the hypothesis. -/

theorem exec_of_exactRead (h : exactRead i s.blk = some v) : exec i s = .next (readExact v s) := by
  cases i <;> cases h <;> rfl

theorem exec_of_resultRead (h : resultRead i s.blk = some v) : exec i s = .next (readResult v s) := by
  cases i <;> cases h <;> rfl

/-- Every read is of a register that reads exactly or of an engine or result register (R39). -/
theorem read_cases (b : Block) (h : isRead i = true) : (∃ v, exactRead i b = some v) ∨ ∃ v, resultRead i b = some v := by
  cases i with
  | rdCtrl | rdConfig | rdInLen | rdStatus | rdUnmapped30 | rdUnmapped40 | rdUnmapped80 => exact .inl ⟨_, rfl⟩
  | rdCodeWidth | rdNextCode | rdPrevCode | rdByteIndex | rdBitIndex | rdOutCountLo | rdOutCountHi | rdErrCode =>
    exact .inr ⟨_, rfl⟩
  | _ => cases h

end

/-- A read of an engine or result register while STATE = BUSY returns a draw (R39). -/
theorem readResult_of_busy {s : State} (hb : s.blk.state = .busy) (v : Word) :
    readResult v s = { s with rdata := (Config.draw s.draws).setWidth 32, draws := s.draws + 1 } :=
  if_pos (isBusy_iff.2 hb)

/-- Settles O27: an exact read returns its word in every state, a read of the other registers by STATE. -/
theorem readsReturnTheRegister : Obligations.ReadsReturnTheRegister := by
  refine fun s i => ⟨fun v h => ?_, fun hb h => ?_⟩
  · obtain h | ⟨hb, h⟩ := h
    · exact exec_of_exactRead s h
    · rw [exec_of_resultRead s h, readResult_of_not_busy hb]
  · obtain ⟨v, h⟩ := Option.isSome_iff_exists.1 h
    rw [exec_of_resultRead s h, readResult_of_busy hb]

/-- What every read leaves: it writes RDATA and may take a draw (R184). -/
theorem exec_of_isRead {i : Instr} (s : State) (h : isRead i = true) :
    ∃ v n, exec i s = .next { s with rdata := v, draws := n } := by
  obtain ⟨v, h⟩ | ⟨v, h⟩ := read_cases s.blk h
  · exact ⟨v, s.draws, exec_of_exactRead s h⟩
  · rw [exec_of_resultRead s h]
    obtain h | ⟨-, h⟩ := readResult_eq s v <;> exact ⟨_, _, congrArg Host.Outcome.next h⟩

/-- Settles O28: a read writes RDATA and the count of draws only. -/
theorem readsHaveNoSideEffect : Obligations.ReadsHaveNoSideEffect := by
  intro s t i h ht
  obtain ⟨v, n, hexec⟩ := exec_of_isRead s h
  cases hexec.symm.trans ht
  exact ⟨rfl, rfl, rfl⟩

/-! ## The sink (R195, R196) -/

section
variable {s : State} {c : Code} {x p : Index} {xs ps : List Index} (hs : s.sinkAccepts = false)
include hs

theorem presentNoPrev_held (hc : entryAt s.blk.table c = .seq x xs) : presentNoPrev c s = .next s := by
  simp [presentNoPrev, hc, hs]

theorem presentRegister_held (hc : entryAt s.blk.table c = .seq x xs) (hp : entryAt s.blk.table s.blk.prev = .seq p ps) :
    presentRegister c s = .next s := by
  simp [presentRegister, hc, hp, hs]

theorem execKwkwk_held (c : Code) (hp : entryAt s.blk.table s.blk.prev = .seq p ps) : execKwkwk c s = .next s := by
  simp [execKwkwk, hp, hs]

end

/-- Settles O40: each meaning that emits asks the sink once it has found its sequences, before it reads the code. -/
theorem sinkHoldsTheStep : Obligations.SinkHoldsTheStep := by
  refine fun s hs => ⟨fun i c x xs h hc => ?_, fun p ps hp => ⟨fun i c x xs h hc => ?_, fun c => execKwkwk_held hs c hp⟩⟩
  · rw [exec_of_noPrevCode s h, presentNoPrev_held hs hc]
  · rw [exec_of_registerCode s h, presentRegister_held hs hc hp]

/-- Settles O55: the event is the sink's, and its move writes the flag alone. -/
theorem sinkAnswerSetsTheFlag : Obligations.SinkAnswerSetsTheFlag :=
  fun _ _ _ hp => step_sink hp

end Sys2Proof.Machine
end

section
/-! PROOFS. Errors, completion and the interrupt of 60_exceptions.md: which moves enter ERROR and DONE, what leaves them, and what lowers irq. -/

namespace Sys2Proof.Machine

open Sys2Proof

/-! ## How the engine enters ERROR and DONE (R213, R221) -/

/-- Every move of the engine keeps STATE, is END's, or is ErrorEntry in the state before the step, with an error of R211. -/
theorem codeMove_state_cases {s t : State} (h : CodeMove s t) :
    t.blk.state = s.blk.state ∨
    (t.blk.state = .done ∧ s.blk.phase = .loop ∧ (codeAtCursor s).toNat = rootSizeOf s.blk + 1) ∨
    ∃ k d c n, errorPair k d = true ∧ t = { s with blk := errorEntry k d c s.blk, draws := n } := by
  cases h with
  | held => exact .inl rfl
  | eod d hd => exact .inr (.inr ⟨_, d, 0, _, by obtain rfl | rfl := hd <;> rfl, raiseNoCode_eq s _ d⟩)
  | err k d c hk => exact .inr (.inr ⟨k, d, c, _, hk, rfl⟩)
  | done hp hc => exact .inr (.inl ⟨rfl, hp, hc⟩)
  | accept => exact .inl (codeRead_state s)
  | clear => exact .inl (codeRead_state s)
  | noPrev => exact .inl (by rw [emitRead_fields]; rfl)
  | reg => exact .inl (by simp [emitRead_fields, setPrev])
  | kw => exact .inl (by simp [emitRead_fields, setPrev])

/-- Settles O41: from BUSY only ErrorEntry reaches ERROR, and it writes STATUS and ERR_CODE of the block alone. -/
theorem errorsArePrecise : Obligations.ErrorsArePrecise := by
  intro s t hb hturn ht
  obtain hkept | ⟨hdone, -⟩ | ⟨k, d, c, n, hpair, rfl⟩ := codeMove_state_cases (engineTurn_codeMove hb hturn)
  · cases hb.symm.trans (hkept.symm.trans ht)
  · cases hdone.symm.trans ht
  · exact ⟨rfl, hpair⟩

/-- The engine's turn enters DONE only at an END code in LOOP that is all there (R136, R140). -/
theorem engineTurn_to_done {s t : State} (hb : s.blk.state = .busy) (h : engineTurn s = .next t) (ht : t.blk.state = .done) :
    s.blk.phase = .loop ∧ s.blk.codeWidth.toNat ≤ avail s.blk ∧ (codeAtCursor s).toNat = rootSizeOf s.blk + 1 := by
  obtain ⟨-, d, -, rfl⟩ | ⟨hall, hmove⟩ := engineTurn_moves hb h
  · cases ht
  obtain hkept | ⟨-, hp, hc⟩ | ⟨k, d, c, n, -, rfl⟩ := codeMove_state_cases hmove
  · cases hb.symm.trans (hkept.symm.trans ht)
  · exact ⟨hp, hall, hc⟩
  · cases ht

/-! ## What a host transaction writes in the block (R185 to R193) -/

/-- INIT ends in BUSY or, for a MIN_CODE_SIZE it rejects, in ERROR (R130). -/
theorem initBlock_state (b : Block) : (initBlock b).state = .busy ∨ (initBlock b).state = .error := by
  unfold initBlock
  split
  · exact .inr rfl
  · exact .inl rfl

/-- The block `b'` is what a host write `w` that is not ignored makes of `b`: a command of CTRL, which never ends in DONE, or a write to
CONFIG or to IN_LEN. -/
inductive BlockWrite (w : HbusWord) (b : Block) : Block → Prop
  | command {b' : Block} : hbusOff w = 0 → (hbusData w).extractLsb' 0 2 ≠ 0 → b'.state ≠ .done → BlockWrite w b b'
  | config : hbusOff w = 4 → BlockWrite w b (writeConfig (hbusData w) b)
  | inLen : hbusOff w = 8 → BlockWrite w b (writeInLen (hbusData w) b)

/-- A host transaction that is not refused leaves the block, or is a 32-bit write to CTRL, CONFIG or IN_LEN. -/
theorem hostMove_blk {s t : State} {bits : Nat} {w : HbusWord} (h : HostMove s bits w t) (hmark : t.refusalMark = false) :
    t.blk = s.blk ∨ bits = 32 ∧ hbusWe w = true ∧ BlockWrite w s.blk t.blk := by
  cases h with
  | ignored | readExact => exact .inl rfl
  | readResult v => obtain h | ⟨-, h⟩ := readResult_eq s v <;> exact .inl (by rw [h])
  | start hbits hwe hoff hdata =>
    have hne : (initBlock s.blk).state ≠ .done := by obtain h | h := initBlock_state s.blk <;> simp [h]
    exact .inr ⟨hbits, hwe, .command hoff (by rw [hdata]; decide) hne⟩
  | abort hbits hwe hoff hbit =>
    have hne : (hbusData w).extractLsb' 0 2 ≠ 0 := by
      rw [ctrl_low, hbit]
      cases (hbusData w).getLsbD 0 <;> decide
    exact .inr ⟨hbits, hwe, .command hoff hne nofun⟩
  | writeConfig hbits hwe hoff => exact .inr ⟨hbits, hwe, .config hoff⟩
  | writeInLen hbits hwe hoff => exact .inr ⟨hbits, hwe, .inLen hoff⟩
  | refuse => cases hmark

/-- A write that changes STATE is a command of CTRL (R189). -/
theorem blockWrite_state {w : HbusWord} {b b' : Block} (h : BlockWrite w b b') (hne : b'.state ≠ b.state) :
    hbusOff w = 0 ∧ (hbusData w).extractLsb' 0 2 ≠ 0 ∧ b'.state ≠ .done := by
  cases h with
  | command hoff hdata hdone => exact ⟨hoff, hdata, hdone⟩
  | config => exact absurd (by rw [writeConfig_eq]) hne
  | inLen => exact absurd (by rw [writeInLen_eq]) hne

/-! ## DONE and ERROR at rest (R214, R219, R221) -/

theorem not_busy_of_ended {b : Block} (h : b.state = .done ∨ b.state = .error) : b.state ≠ .busy := by
  obtain h | h := h <;> simp [h]

/-- Outside BUSY only rst and a host write change the block; a refused transaction is excepted (R135, R181). -/
theorem step_blk_of_not_busy {s t : State} (h : step s = .next t) (hb : s.blk.state ≠ .busy) (hmark : t.refusalMark = false) :
    t.blk = s.blk ∨ (∃ es, s.pending = .rst :: es) ∨
    ∃ w es, s.pending = .host 32 w :: es ∧ hbusWe w = true ∧ BlockWrite w s.blk t.blk := by
  cases step_moves h with
  | still | sink | place => exact .inl rfl
  | code _ hbusy => exact absurd hbusy hb
  | rst es hp => exact .inr (.inl ⟨es, hp⟩)
  | host bits w es hp hmove =>
    obtain hkept | ⟨rfl, hwe, hwrite⟩ := hostMove_blk hmove hmark
    · exact .inl hkept
    · exact .inr (.inr ⟨w, es, hp, hwe, hwrite⟩)

/-- Settles O42: what changes the block is rst or a host write, and of the writes only a command of CTRL changes STATE. -/
theorem errorAndDoneAbsorb : Obligations.ErrorAndDoneAbsorb := by
  intro s t hended hstep hmark
  have hb := not_busy_of_ended hended.symm
  obtain hkept | ⟨es, hp⟩ | ⟨w, es, hp, hwe, hwrite⟩ := step_blk_of_not_busy hstep hb hmark
  · exact ⟨fun _ _ => hkept, fun hne => absurd (by rw [hkept]) hne⟩
  · exact ⟨fun hrst _ => absurd hp (hrst es), fun _ => .inl ⟨es, hp⟩⟩
  · refine ⟨fun _ hread => absurd (hread 32 w es hp) (by simp [hwe]), fun hne => ?_⟩
    obtain ⟨hoff, hdata, -⟩ := blockWrite_state hwrite hne
    exact .inr ⟨w, es, hp, hwe, hoff, hdata⟩

/-- Settles O43: in BUSY DONE is entered by the engine, and no host transaction, outside BUSY or in it, enters it. -/
theorem doneOnlyThroughEnd : Obligations.DoneOnlyThroughEnd := by
  intro s t hs hstep hmark ht
  have hne : t.blk.state ≠ s.blk.state := fun h => hs (h.symm.trans ht)
  cases step_moves hstep with
  | still | sink | place => exact absurd rfl hne
  | rst => cases ht
  | host bits w es hp hmove =>
    obtain hkept | ⟨-, -, hwrite⟩ := hostMove_blk hmove hmark
    · exact absurd (congrArg Block.state hkept) hne
    · obtain ⟨-, -, hdone⟩ := blockWrite_state hwrite hne
      exact absurd ht hdone
  | code hp hb =>
    have hturn : step s = engineTurn (withPending s.pending.tail s) := step_of_engine_turn <|
      hp.elim (fun h => .inr ⟨h, by rw [h]; rfl⟩) fun h => .inl (List.eq_cons_of_mem_head? h)
    obtain ⟨hphase, hall, hcode⟩ := engineTurn_to_done (s := withPending s.pending.tail s) hb (hturn.symm.trans hstep) ht
    exact ⟨hb, hphase, hall, codeAtCursor_withPending _ s ▸ hcode⟩

/-- irq is high exactly where IRQ_EN is 1 and a decode has ended (R219). -/
theorem irq_iff (b : Block) : irq b = true ↔ b.config.getLsbD 9 = true ∧ (b.state = .done ∨ b.state = .error) := by
  simp [irq, irqEn, ended]

/-- Where a decode has ended, irq is low only if IRQ_EN is 0. -/
theorem irqEn_of_irq_low {b : Block} (hended : b.state = .done ∨ b.state = .error) (h : irq b = false) :
    b.config.getLsbD 9 = false :=
  Bool.eq_false_iff.2 fun hen => Bool.eq_false_iff.1 h ((irq_iff b).2 ⟨hen, hended⟩)

/-- A write that lowers irq is a command of CTRL, or writes 0 to IRQ_EN (R219). -/
theorem blockWrite_lowers_irq {w : HbusWord} {b b' : Block} (h : BlockWrite w b b') (hhigh : irq b = true) (hlow : irq b' = false) :
    (hbusOff w = 0 ∧ (hbusData w).extractLsb' 0 2 ≠ 0) ∨ (hbusOff w = 4 ∧ (hbusData w).getLsbD 9 = false) := by
  obtain ⟨hen, hended⟩ := (irq_iff b).1 hhigh
  have hb := not_busy_of_ended hended
  cases h with
  | command hoff hdata => exact .inl ⟨hoff, hdata⟩
  | config hoff =>
    have hen' := irqEn_of_irq_low (by rw [writeConfig_eq]; exact hended) hlow
    rw [writeConfig_eq, if_neg hb] at hen'
    exact .inr ⟨hoff, (getLsbD_and_configMask (by decide)).symm.trans hen'⟩
  | inLen =>
    have hen' := irqEn_of_irq_low (by rw [writeInLen_eq]; exact hended) hlow
    rw [writeInLen_eq] at hen'
    cases hen.symm.trans hen'

/-- Settles O53: irq is high outside BUSY only, where what changes the block is rst or a host write. -/
theorem irqIsALevel : Obligations.IrqIsALevel := by
  refine ⟨irq_iff, fun s t hhigh hstep hmark hlow => ?_⟩
  obtain ⟨-, hended⟩ := (irq_iff s.blk).1 hhigh
  have hb := not_busy_of_ended hended
  obtain hkept | hrst | ⟨w, es, hp, hwe, hwrite⟩ := step_blk_of_not_busy hstep hb hmark
  · rw [hkept, hhigh] at hlow
    cases hlow
  · exact .inl hrst
  · exact .inr ⟨w, es, hp, hwe, blockWrite_lowers_irq hwrite hhigh hlow⟩

end Sys2Proof.Machine
end

section
/-! PROOFS. Reset and hazards of 70_reset_and_hazards.md: what rst leaves, and how soon a decode that nothing disturbs ends. -/

namespace Sys2Proof.Machine

open Sys2Proof

/-- Settles O2: the event is rst, and its move writes the block and the count of draws alone. -/
theorem resetStopsTheDecode : Obligations.ResetStopsTheDecode :=
  fun _ _ hp => step_rst hp

/-! ## A decode that nothing disturbs (R253) -/

/-- R253's hypotheses that every step keeps: the state is in order, the sink accepts and no other agent has a move to make. -/
structure Undisturbed (s : State) : Prop where
  inv : s.Inv
  unmarked : s.refusalMark = false
  accepting : s.sinkAccepts = true
  alone : s.pending = []

section
variable {s t : State} (hu : Undisturbed s) (hb : s.blk.state = .busy)
include hu hb

theorem undisturbed_engineTurn (h : engineTurn s = .next t) : Undisturbed t := by
  obtain ⟨-, -, hmark, hpending, haccepts, -⟩ := codeMove_frame (engineTurn_codeMove hb h)
  exact ⟨engineTurn_inv hu.inv h, hmark.trans hu.unmarked, haccepts.trans hu.accepting, hpending.trans hu.alone⟩

/-- A turn that stays in BUSY leaves at least three bits fewer: it consumes its code (R165), all of it before the end of IN. -/
theorem engineTurn_avail (h : engineTurn s = .next t) (hbt : t.blk.state = .busy) : avail t.blk + 3 ≤ avail s.blk := by
  obtain ⟨hcursor, hwidth⟩ := everyCodeStepAdvances s t hu.inv hu.unmarked hb hu.accepting h hbt
  obtain ⟨-, hlen⟩ := codeMove_configuration (engineTurn_codeMove hb h)
  have ht := undisturbed_engineTurn hu hb h
  have hposition := (ht.inv.engine ht.unmarked hbt).position
  rw [avail, avail, hlen, hcursor]
  rw [hlen, hcursor] at hposition
  omega

/-- The next step ends the decode, or goes on with at least three bits fewer. -/
theorem step_ends_or_consumes : ∃ t, step s = .next t ∧
    ((t.blk.state = .done ∨ t.blk.state = .error) ∨
      (Undisturbed t ∧ t.blk.state = .busy ∧ avail t.blk + 3 ≤ avail s.blk)) := by
  obtain ⟨t, h⟩ := engineTurn_runs hu.inv hu.unmarked
  refine ⟨t, (step_nil hu.alone).trans h, ?_⟩
  obtain ⟨herror, -⟩ | ⟨hbt | hdone, -⟩ := codeMove_status hb (engineTurn_codeMove hb h)
  · exact .inl (.inr herror)
  · exact .inr ⟨undisturbed_engineTurn hu hb h, hbt, engineTurn_avail hu hb h hbt⟩
  · exact .inl (.inl hdone)

end

/-- A run goes through the state its first step ends in. -/
theorem run_succ {M : Host.Core} {s t : M.State} (h : M.step s = .next t) (k : Nat) : M.run (k + 1) s = M.run k t := by
  rw [Host.Core.run, h]

/-- With fewer than 3 * n bits left, n steps are enough: each step ends the decode or leaves fewer than 3 * (n - 1). -/
theorem run_ends (n : Nat) : ∀ {s : State}, Undisturbed s → s.blk.state = .busy → avail s.blk < 3 * n →
    ∃ k ≤ n, ∃ t : State, core.run k s = .next t ∧ (t.blk.state = .done ∨ t.blk.state = .error) := by
  induction n with
  | zero => intro s _ _ hbits; omega
  | succ n ih =>
    intro s hu hb hbits
    obtain ⟨t, hstep, hended | ⟨hut, hbt, hfewer⟩⟩ := step_ends_or_consumes hu hb
    · exact ⟨1, by omega, t, run_succ (M := core) hstep 0, hended⟩
    · obtain ⟨k, hk, u, hrun, hended⟩ := ih hut hbt (by omega)
      exact ⟨k + 1, by omega, u, (run_succ (M := core) hstep k).trans hrun, hended⟩

/-- Settles O47: fewer than 3 * (avail / 3 + 1) bits are left, and every step ends the decode or consumes three of them. -/
theorem decodeTerminates : Obligations.DecodeTerminates := by
  intro s hi hm hb hs hp
  exact run_ends (avail s.blk / 3 + 1) ⟨hi, hm, hs, hp⟩ hb (by omega)

end Sys2Proof.Machine
end
